-- ==== Sys2Proof/Word.lean ====
section
/-! DEFINITION. The word types of ENO-RX: bytes, the 16-bit and the 32-bit words (spec 00_scope.md R11). -/

namespace Sys2Proof

/-- `u8` of R11: the unit of every access (R46). -/
abbrev Byte := BitVec 8

/-- `u16` of R11. -/
abbrev Word16 := BitVec 16

/-- `u32` of R11: the command word, the length word, the sender and destination ids. -/
abbrev Word32 := BitVec 32

end Sys2Proof
end

