-- ==== Sys2Proof/Syntax.lean ====
section
/-! DEFINITION. The commands of ENO-RX as syntax: one constructor of `Instr` per row of spec/opcode_table.json
(spec 30_encoding.md R84), with the operands its format carries (R81, R82). -/

namespace Sys2Proof

/-- The command formats of R81. -/
inductive Format where
  | N
  | B
  | BP
  | BPQ
  | S
  | SA
deriving DecidableEq, Repr

/-- The opcodes of R84, by mnemonic. -/
inductive Opcode where
  | adddata
  | parse
  | clrbuf
  | bufsize
  | crc8
  | crcvfy
  | getbit
  | getbits
  | hinib
  | lonib
  | msb
  | rocker
  | action
  | cmdkind
  | dimtime
  | telegram
  | detect
  | decode
  | pktclass
deriving DecidableEq, Repr

/-- A command with its operands (R84). A `stream` is the operand sequence `D` of R82. -/
inductive Instr where
  | adddata (stream : List Byte)
  | parse
  | clrbuf
  | bufsize
  | crc8 (stream : List Byte)
  | crcvfy (expected : Byte) (stream : List Byte)
  | getbit (byte pos : Byte)
  | getbits (byte lo hi : Byte)
  | hinib (byte : Byte)
  | lonib (byte : Byte)
  | msb (byte : Byte)
  | rocker (code : Byte)
  | action (status : Byte)
  | cmdkind (nibble : Byte)
  | dimtime (raw : Byte)
  | telegram (stream : List Byte)
  | detect (stream : List Byte)
  | decode (selector : Byte) (stream : List Byte)
  | pktclass (stream : List Byte)
deriving DecidableEq, Repr

/-- The stream operand a command carries, if its format has one (R82). -/
def Instr.stream? : Instr → Option (List Byte)
  | .adddata d => some d
  | .parse => none
  | .clrbuf => none
  | .bufsize => none
  | .crc8 d => some d
  | .crcvfy _ d => some d
  | .getbit _ _ => none
  | .getbits _ _ _ => none
  | .hinib _ => none
  | .lonib _ => none
  | .msb _ => none
  | .rocker _ => none
  | .action _ => none
  | .cmdkind _ => none
  | .dimtime _ => none
  | .telegram d => some d
  | .detect d => some d
  | .decode _ d => some d
  | .pktclass d => some d

end Sys2Proof
end

