-- ==== Sys2Proof/WellFormed.lean ====
section
/-! DEFINITION. Which commands the command port can carry. The one limit of the encoding is R82's: the length word
is a u32. The value constraints of R86 are NOT well-formedness: a command that violates one is encodable and is
refused by its meaning (Machine/Operands.lean). -/

namespace Sys2Proof

/-- The stream's length fits the 32-bit length word `LW` (R82). -/
def streamFits (stream : List Byte) : Bool := decide (stream.length < 2 ^ 32)

/-- A command the command port can carry (R80 to R82). -/
def Instr.wf (i : Instr) : Bool :=
  match i.stream? with
  | some d => streamFits d
  | none => true

/-- `Instr.wf` as a proposition. -/
abbrev Instr.WellFormed (i : Instr) : Prop := i.wf = true

end Sys2Proof
end

