-- ==== Sys2Proof/Decode.lean ====
section
/-! DEFINITION. The command port's encoding (spec 30_encoding.md Part B, R80 to R87): the opcode map, the decoder from
the bytes the host sent, total and rejecting by name, and the encoder. The byte order is most significant byte first
(20_memory.md R44). -/

namespace Sys2Proof

/-! ### Byte order (R42, R44) -/

/-- Four bytes as a 32-bit word, most significant first: `BE32` of R12. -/
def be32 (b0 b1 b2 b3 : Byte) : Word32 := b0 ++ b1 ++ b2 ++ b3

/-- Two bytes as an unsigned integer, most significant first: `BE16` of R12. -/
def be16 (b0 b1 : Byte) : Nat := b0.toNat * 256 + b1.toNat

/-- The bytes of a 32-bit word in the order the port carries them (R44). -/
def bytes32 (w : Word32) : List Byte :=
  [w.extractLsb' 24 8, w.extractLsb' 16 8, w.extractLsb' 8 8, w.extractLsb' 0 8]

/-- The bytes of a 16-bit word, most significant first (the u16 response of R88). -/
def bytes16 (w : Word16) : List Byte :=
  [w.extractLsb' 8 8, w.extractLsb' 0 8]

/-! ### The fields of a command word (R80) -/

/-- `CW[31:24]`. -/
def fieldOP (cw : Word32) : Byte := cw.extractLsb' 24 8
/-- `CW[23:16]`. -/
def fieldA (cw : Word32) : Byte := cw.extractLsb' 16 8
/-- `CW[15:8]`. -/
def fieldP (cw : Word32) : Byte := cw.extractLsb' 8 8
/-- `CW[7:0]`. -/
def fieldQ (cw : Word32) : Byte := cw.extractLsb' 0 8

/-! ### The opcode map (R84) -/

/-- The `OP` value of each mnemonic (R84). -/
def Opcode.toByte : Opcode → Byte
  | .adddata => 0x01
  | .parse => 0x02
  | .clrbuf => 0x03
  | .bufsize => 0x04
  | .crc8 => 0x10
  | .crcvfy => 0x11
  | .getbit => 0x20
  | .getbits => 0x21
  | .hinib => 0x22
  | .lonib => 0x23
  | .msb => 0x24
  | .rocker => 0x25
  | .action => 0x26
  | .cmdkind => 0x27
  | .dimtime => 0x28
  | .telegram => 0x30
  | .detect => 0x31
  | .decode => 0x32
  | .pktclass => 0x33

/-- The format of each mnemonic (R84). -/
def Opcode.format : Opcode → Format
  | .adddata => .S
  | .parse => .N
  | .clrbuf => .N
  | .bufsize => .N
  | .crc8 => .S
  | .crcvfy => .SA
  | .getbit => .BP
  | .getbits => .BPQ
  | .hinib => .B
  | .lonib => .B
  | .msb => .B
  | .rocker => .B
  | .action => .B
  | .cmdkind => .B
  | .dimtime => .B
  | .telegram => .S
  | .detect => .S
  | .decode => .SA
  | .pktclass => .S

/-- The rows of the opcode map, in the table's order. -/
def Opcode.all : List Opcode :=
  [.adddata, .parse, .clrbuf, .bufsize, .crc8, .crcvfy, .getbit, .getbits, .hinib, .lonib,
    .msb, .rocker, .action, .cmdkind, .dimtime, .telegram, .detect, .decode, .pktclass]

/-- The opcode an `OP` value stands for; `none` for the reserved values (R85). -/
def Opcode.ofByte (op : Byte) : Option Opcode := Opcode.all.find? (fun o => o.toByte == op)

/-- The formats followed by a length word and stream bytes (R81, R82). -/
def Format.hasStream : Format → Bool
  | .N => false
  | .B => false
  | .BP => false
  | .BPQ => false
  | .S => true
  | .SA => true

/-- Every must-be-zero field of the format is zero in `cw` (R81, R83). -/
def Format.reservedClear (f : Format) (cw : Word32) : Bool :=
  match f with
  | .N => fieldA cw == 0 && fieldP cw == 0 && fieldQ cw == 0
  | .B => fieldP cw == 0 && fieldQ cw == 0
  | .BP => fieldQ cw == 0
  | .BPQ => true
  | .S => fieldA cw == 0 && fieldP cw == 0 && fieldQ cw == 0
  | .SA => fieldP cw == 0 && fieldQ cw == 0

/-! ### The decoder -/

/-- What the front of the command port holds. `rest` is what stands behind the command (R87). -/
inductive Decoded where
  /-- Fewer bytes than one command: the block waits for the rest. -/
  | incomplete
  /-- A reserved opcode: four bytes are consumed (R85). -/
  | illegalOpcode (cw : Word32) (rest : List Byte)
  /-- A must-be-zero field is nonzero; the command has its whole length (R83, R87). -/
  | reservedField (cw : Word32) (rest : List Byte)
  /-- A command of the opcode map. -/
  | command (i : Instr) (rest : List Byte)
deriving DecidableEq, Repr

/-- The command of an opcode with operand fields `a`, `p`, `q` and stream `d`; fields the format does not use are
dropped (R84). -/
def Opcode.build (o : Opcode) (a p q : Byte) (d : List Byte) : Instr :=
  match o with
  | .adddata => .adddata d
  | .parse => .parse
  | .clrbuf => .clrbuf
  | .bufsize => .bufsize
  | .crc8 => .crc8 d
  | .crcvfy => .crcvfy a d
  | .getbit => .getbit a p
  | .getbits => .getbits a p q
  | .hinib => .hinib a
  | .lonib => .lonib a
  | .msb => .msb a
  | .rocker => .rocker a
  | .action => .action a
  | .cmdkind => .cmdkind a
  | .dimtime => .dimtime a
  | .telegram => .telegram d
  | .detect => .detect d
  | .decode => .decode a d
  | .pktclass => .pktclass d

/-- The stream operand of R82: the length word, then exactly that many bytes. `none` while they have not all arrived. -/
def takeStream : List Byte → Option (List Byte × List Byte)
  | l0 :: l1 :: l2 :: l3 :: t =>
    let n := (be32 l0 l1 l2 l3).toNat
    if n ≤ t.length then some (t.take n, t.drop n) else none
  | _ => none

/-- The command with its whole length read: refused for a nonzero must-be-zero field, else built (R83). -/
def decodeFields (o : Opcode) (cw : Word32) (d rest : List Byte) : Decoded :=
  if o.format.reservedClear cw then
    .command (o.build (fieldA cw) (fieldP cw) (fieldQ cw) d) rest
  else
    .reservedField cw rest

/-- Reads one command from the front of the port. Its length is told by the opcode alone (R87): a stream command with
a nonzero must-be-zero field still takes its length word and stream with it. -/
def decode (port : List Byte) : Decoded :=
  match port with
  | b0 :: b1 :: b2 :: b3 :: t =>
    let cw := be32 b0 b1 b2 b3
    match Opcode.ofByte (fieldOP cw) with
    | none => .illegalOpcode cw t
    | some o =>
      if o.format.hasStream then
        match takeStream t with
        | some (d, rest) => decodeFields o cw d rest
        | none => .incomplete
      else
        decodeFields o cw [] t
  | _ => .incomplete

/-! ### The encoder -/

/-- The opcode of a command. -/
def Instr.opcode : Instr → Opcode
  | .adddata _ => .adddata
  | .parse => .parse
  | .clrbuf => .clrbuf
  | .bufsize => .bufsize
  | .crc8 _ => .crc8
  | .crcvfy _ _ => .crcvfy
  | .getbit _ _ => .getbit
  | .getbits _ _ _ => .getbits
  | .hinib _ => .hinib
  | .lonib _ => .lonib
  | .msb _ => .msb
  | .rocker _ => .rocker
  | .action _ => .action
  | .cmdkind _ => .cmdkind
  | .dimtime _ => .dimtime
  | .telegram _ => .telegram
  | .detect _ => .detect
  | .decode _ _ => .decode
  | .pktclass _ => .pktclass

/-- The command word of opcode `op` and fields `A`, `P`, `Q` (R80). -/
def packCommand (op a p q : Byte) : Word32 := op ++ a ++ p ++ q

/-- The command word `CW` of a command (R80, R84). -/
def Instr.commandWord (i : Instr) : Word32 :=
  match i with
  | .adddata _ => packCommand Opcode.adddata.toByte 0 0 0
  | .parse => packCommand Opcode.parse.toByte 0 0 0
  | .clrbuf => packCommand Opcode.clrbuf.toByte 0 0 0
  | .bufsize => packCommand Opcode.bufsize.toByte 0 0 0
  | .crc8 _ => packCommand Opcode.crc8.toByte 0 0 0
  | .crcvfy expected _ => packCommand Opcode.crcvfy.toByte expected 0 0
  | .getbit byte pos => packCommand Opcode.getbit.toByte byte pos 0
  | .getbits byte lo hi => packCommand Opcode.getbits.toByte byte lo hi
  | .hinib byte => packCommand Opcode.hinib.toByte byte 0 0
  | .lonib byte => packCommand Opcode.lonib.toByte byte 0 0
  | .msb byte => packCommand Opcode.msb.toByte byte 0 0
  | .rocker code => packCommand Opcode.rocker.toByte code 0 0
  | .action status => packCommand Opcode.action.toByte status 0 0
  | .cmdkind nibble => packCommand Opcode.cmdkind.toByte nibble 0 0
  | .dimtime raw => packCommand Opcode.dimtime.toByte raw 0 0
  | .telegram _ => packCommand Opcode.telegram.toByte 0 0 0
  | .detect _ => packCommand Opcode.detect.toByte 0 0 0
  | .decode selector _ => packCommand Opcode.decode.toByte selector 0 0
  | .pktclass _ => packCommand Opcode.pktclass.toByte 0 0 0

/-- The length word `LW` of a stream (R82). -/
def lengthWord (stream : List Byte) : Word32 := BitVec.ofNat 32 stream.length

/-- The bytes the host sends for a command (R80 to R82, R87). -/
def encode (i : Instr) : List Byte :=
  bytes32 i.commandWord ++
    match i.stream? with
    | some d => bytes32 (lengthWord d) ++ d
    | none => []

/-- The pseudo-instruction `FEED [s]` of R91: `ADDDATA [s]`, then `PARSE`. -/
def feed (stream : List Byte) : List Instr := [.adddata stream, .parse]

/-- The bytes of several commands in issue order (R49). -/
def encodeAll (cmds : List Instr) : List Byte := cmds.flatMap encode

/-! ### The opcode table's words -/

/-- The bytes on the port of the instruction whose bits are `w`, numbered as spec/opcode_table.json numbers them: bits
31..0 are the command word, bits 63..32 the length word, then the stream bytes, eight bits each; a bit at or above
`nbits` is 0. -/
def tableBytes (nbits w : Nat) : List Byte :=
  let v := w % 2 ^ nbits
  let cw := BitVec.ofNat 32 v
  let lw := BitVec.ofNat 32 (v >>> 32)
  let hasStream := ((Opcode.ofByte (fieldOP cw)).map (fun o => o.format.hasStream)).getD false
  bytes32 cw ++
    if hasStream then
      bytes32 lw ++ (List.range lw.toNat).map (fun k => BitVec.ofNat 8 (v >>> (64 + 8 * k)))
    else []

/-- The command the decoder reads from the instruction whose bits are `w` (see `tableBytes`). -/
def decodeTableWord (nbits w : Nat) : Option Instr :=
  match decode (tableBytes nbits w) with
  | .command i _ => some i
  | .incomplete => none
  | .illegalOpcode _ _ => none
  | .reservedField _ _ => none

end Sys2Proof
end

