-- ==== Sys2Proof/Config.lean ====
section
/-! DEFINITION. What one instance of ENO-RX fixes and no command changes (spec 00_scope.md R9), and the one free value.
Protocol constants a test could show wrong (sync byte, polynomial, type codes) stand in Machine/Ops.lean instead. -/

namespace Sys2Proof

/-- The parameters of an instance of the block (R9). `none` is `unbounded`, the value the spec decides for both. -/
structure Config where
  /-- `BUF_CAP`, in bytes; R152 says what a finite one does. -/
  bufCap : Option Nat
  /-- `RESULT_CAP`, the capacity of one PARSE result. DESIGN CHOICE: it counts packets; R9 gives it no unit
  (notes/assumptions/4.md). -/
  resultCap : Option Nat := none
deriving DecidableEq, Repr

/-- The instance the spec decides: `BUF_CAP` and `RESULT_CAP` unbounded (R9). -/
def Config.unbounded : Config := { bufCap := none, resultCap := none }

/-- FREE VALUE: whether the `k`-th packet framed from buffer `b` is in the result of a PARSE whose packets outnumber a
finite `RESULT_CAP` of `c`. R9 names the parameter and no rule says which packets such a result holds
(notes/assumptions/4.md). -/
opaque Config.keepsPacket (c : Nat) (b : List Byte) (k : Nat) : Bool

end Sys2Proof
end

