-- ==== Sys2Proof/Machine/State.lean ====
section
/-! DEFINITION. The state of ENO-RX (spec 10_state.md), the values its answers carry (30_encoding.md R88, R89;
44_decoder.md R182, R183) and the reasons a step can stop. -/

namespace Sys2Proof.Machine

/-! ### Values of the bit-field tables and the decoder -/

/-- Rocker position (R72, R89). `rest` is the position the spec writes `none`. -/
inductive Rocker where
  | rest
  | up
  | down
deriving DecidableEq, Repr

/-- The press/release action (R132, R89). -/
inductive Action where
  | released
  | pressed
deriving DecidableEq, Repr

/-- The relay/dimmer command kinds (R74). "none" of the spec is `Option.none`. -/
inductive CommandKind where
  | switching
  | dimming
  | statusRequest
  | statusResponse
deriving DecidableEq, Repr

/-- The two profiles (R70). "none" of the spec is `Option.none`. -/
inductive Profile where
  | twoRocker
  | relayDimmer
deriving DecidableEq, Repr

/-- The dispatch classes of PKTCLASS (R64, R205). -/
inductive PacketClass where
  | other
  | radio
  | response
  | event
deriving DecidableEq, Repr

/-- The radio-telegram view of a packet (R182). `dBm` is an integer, not a word: the spec gives it as -255..0 (D27). -/
structure Telegram where
  rorg          : Byte
  senderId      : Word32
  destinationId : Option Word32
  status        : Byte
  subTelNum     : Option Byte
  dBm           : Int
  securityLevel : Option Byte
  payload       : List Byte
deriving DecidableEq, Repr

/-- The two-rocker variant of the Event record (R183). -/
structure TwoRockerEvent where
  rockerA      : Rocker
  rockerB      : Rocker
  energyBow    : Bool
  secondAction : Bool
  action       : Action
  senderId     : Word32
  dBm          : Int
deriving DecidableEq, Repr

/-- The relay/dimmer variant of the Event record (R183). -/
structure RelayEvent where
  channel     : Byte
  command     : CommandKind
  outputOn    : Bool
  outputLevel : Byte
  dimValue    : Option Byte
  dimTime     : Option Word16
  senderId    : Word32
  dBm         : Int
deriving DecidableEq, Repr

/-- The Event record, a tagged union (R183). -/
inductive Event where
  | twoRocker (e : TwoRockerEvent)
  | relayDimmer (e : RelayEvent)
deriving DecidableEq, Repr

/-! ### Answers -/

/-- The response of a command that is neither refused nor faulted, one constructor per response type of R88. -/
inductive Response where
  | ack
  | packets (ps : List (List Byte))
  | size (n : Nat)
  | u8 (v : Byte)
  | bool (b : Bool)
  | rocker (r : Rocker)
  | action (a : Action)
  | commandKind (k : Option CommandKind)
  | seconds (t : Word16)
  | telegram (t : Option Telegram)
  | profile (p : Option Profile)
  | event (e : Option Event)
  | packetClass (c : PacketClass)
deriving DecidableEq, Repr

/-- A refusal the host receives, with the value R233 says is recorded. -/
inductive RefusalReport where
  | illegalOpcode (cw : Word32)
  | reservedField (cw : Word32)
  | operandRange (cw : Word32)
  | notAPacket (cw lw : Word32)
deriving DecidableEq, Repr

/-- A fault the host receives, with the value R233 says is recorded. -/
inductive FaultReport where
  | bufferOverflow (cw lw : Word32) (bufLen : Nat)
deriving DecidableEq, Repr

/-- The outcome of one command as the host receives it: a response, a refusal or a fault (R14, R233). -/
inductive Answer where
  | response (r : Response)
  | refused (r : RefusalReport)
  | faulted (f : FaultReport)
deriving DecidableEq, Repr

/-! ### The state -/

/-- The state of the block and of its command port. `buf`, `faulted` and `refused` are the state the spec gives
(R32); `config` is the instance's parameter (R9), which no step changes; `port` and `answer` are the two sides of the
command port (R80, R88): the bytes the host has sent and the block has not consumed, and the outcome of the last
command performed. ENO-RX has no registers, no program counter, no flags and no addressable memory (R23 to R26, R40). -/
structure State where
  buf     : List Byte
  faulted : Bool
  refused : Bool
  config  : Config
  port    : List Byte
  answer  : Option Answer
deriving DecidableEq, Repr

/-- The machine right after reset (R32, R260), in the instance the spec decides (R9): an empty buffer, both marks
false, nothing sent, nothing answered. -/
def State.reset : State :=
  { buf := [], faulted := false, refused := false, config := Config.unbounded, port := [], answer := none }

/-! ### Reasons to stop -/

/-- Reasons the MACHINE stops with a fault: there is none. The spec's one fault, `BufferOverflow`, does not stop the
block: it sets the mark `faulted`, is answered to the host, and the next command is accepted (R237, R240), so it is a
next state. Nothing raises a value of this type; that is safe only because no rule of the spec stops the block. -/
inductive Fault where
deriving DecidableEq, Repr

/-- Reasons the model has no meaning for a command. The spec's refusals (R233) are answers, not values of this type:
a refused command is a next state (R236, R240). -/
inductive Refusal where
  /-- An instruction whose arm of `exec` has no meaning yet: raised by `exec` alone, safe. No arm raises it. -/
  | notModelled (mnemonic : String)
deriving DecidableEq, Repr

/-- What a meaning and a step answer. -/
abbrev Out := Host.Outcome State Fault Refusal

end Sys2Proof.Machine
end

