-- ==== Sys2Proof/Machine/Flags.lean ====
section
/-! DEFINITION. ENO-RX has no flags or condition codes (spec 10_state.md R25): no flag computation exists. What stands
here are the two sticky marks the model keeps beside `BUF` (R30). No operation clears either; only reset starts them
false. -/

namespace Sys2Proof.Machine

/-- Sets the sticky mark `refused` (R30, R236). -/
def State.markRefused (s : State) : State := { s with refused := true }

/-- Sets the sticky mark `faulted` (R30, R237). -/
def State.markFaulted (s : State) : State := { s with faulted := true }

/-- Neither mark is set: no command so far was refused or faulted (R30). -/
def State.unmarked (s : State) : Bool := !s.faulted && !s.refused

end Sys2Proof.Machine
end

