-- ==== Sys2Proof/Machine/Ops.lean ====
section
/-! DEFINITION. The named operations every meaning is built from: the protocol's constants (spec 00_scope.md R8), the
buffer primitives (20_memory.md R43), the ways a command ends (60_exceptions.md R236, R237, 30_encoding.md R88), and
the checksum (41_crc8.md R100). The block has no traps (R239) and no return from one (R240): the shared operation that
stands where another machine takes an exception is `refuse`, and for the one fault `overflow`. -/

namespace Sys2Proof.Machine

/-! ### Constants (R8, R64, R70) -/

/-- `HEADER_LEN`. -/
def headerLen : Nat := 6
/-- `SYNC`. -/
def syncByte : Byte := 0x55
/-- `CRC_POLY`. -/
def crcPoly : Byte := 0x07
/-- `DEFAULT_DBM`: the signal strength when the optional data does not give one (R69). -/
def defaultDbm : Int := -100
/-- `CHANNEL_MASK`: five bits (R8, R197). -/
def channelMask : Byte := 0x1F
/-- The RORG code RPS (R70). -/
def rorgRps : Byte := 0xF6
/-- The RORG code VLD (R70). -/
def rorgVld : Byte := 0xD2
/-- The packet type RADIO (R64). -/
def typeRadio : Byte := 0x01
/-- The packet type RESPONSE (R64). -/
def typeResponse : Byte := 0x02
/-- The packet type EVENT (R64). -/
def typeEvent : Byte := 0x04

/-! ### The buffer primitives (R43) -/

/-- Replaces the buffer: `BUF <- b` (R13). -/
def State.setBuf (s : State) (b : List Byte) : State := { s with buf := b }

/-- `BufAppend(d)`: the bytes enter at the end, in the order the host supplied them (R43). -/
def State.bufAppend (s : State) (d : List Byte) : State := s.setBuf (s.buf ++ d)

/-- `BufDrop(n)`: the `n` oldest bytes leave (R43). PARSE works on a copy of the buffer (R154), so it is written over
a byte sequence. -/
def bufDrop (n : Nat) (b : List Byte) : List Byte := b.drop n

/-- `BufRead(i)`: defined only inside the sequence (R43). -/
def bufRead (b : List Byte) (i : Nat) : Option Byte := b[i]?

/-- `BE32(s, i)` of R12: the four bytes from index `i` on, defined only inside the sequence. -/
def be32At (b : List Byte) (i : Nat) : Option Word32 :=
  match b.drop i with
  | b0 :: b1 :: b2 :: b3 :: _ => some (be32 b0 b1 b2 b3)
  | _ => none

/-! ### The command port -/

/-- Replaces what the host has sent and the block has not consumed. -/
def State.setPort (s : State) (p : List Byte) : State := { s with port := p }

/-- Delivers the outcome of the command to the host (R14). -/
def State.setAnswer (s : State) (a : Answer) : State := { s with answer := some a }

/-- The host sends bytes on the command port, behind those it has already sent (R49). No step does this: it is the
host's own act. -/
def State.offer (s : State) (bytes : List Byte) : State := s.setPort (s.port ++ bytes)

/-! ### The ways a command ends -/

/-- Ends with response `r` (R88); the caller has made the command's other effects. -/
def respond (r : Response) (s : State) : Out := .next (s.setAnswer (.response r))

/-- `raise Refused(reason)`: no block state changes, the host receives the refusal, and the mark `refused` is set
(R13, R236). The block accepts the next command normally (R240). -/
def refuse (r : RefusalReport) (s : State) : Out := .next (s.markRefused.setAnswer (.refused r))

/-- `raise Fault(BufferOverflow)`: `BUF` is unchanged, the host receives the fault with what R233 says is recorded, and
the mark `faulted` is set (R237). The block accepts the next command normally (R240). -/
def overflow (cw lw : Word32) (s : State) : Out :=
  .next (s.markFaulted.setAnswer (.faulted (.bufferOverflow cw lw s.buf.length)))

/-- The port does not hold one whole command: the block waits, and nothing changes. DESIGN CHOICE
(notes/assumptions/2.md): the spec gives the block nothing to do before a command is complete. -/
def awaitCommand (s : State) : Out := .next s

/-! ### The checksum (R100) -/

/-- One of the eight rounds: shift left, and XOR the polynomial in when the high bit was set. -/
def crcRound (acc : Byte) : Byte :=
  if acc.getLsbD 7 then (acc <<< 1) ^^^ crcPoly else acc <<< 1

/-- `n` rounds. -/
def crcRounds : Nat → Byte → Byte
  | 0, acc => acc
  | n + 1, acc => crcRounds n (crcRound acc)

/-- `crcStep(acc, b)`: the byte is XORed in, then eight rounds. -/
def crcStep (acc b : Byte) : Byte := crcRounds 8 (acc ^^^ b)

/-- `crc8(s)`: the accumulator starts at 0 for each computation and is discarded after it (R27), so it is no field of
the state. The framer, the decoder's packet check and the CRC commands all use this one function (R106). -/
def crc8 (s : List Byte) : Byte := s.foldl crcStep 0

end Sys2Proof.Machine
end

