-- ==== Sys2Proof/Machine/Operands.lean ====
section
/-! DEFINITION. The operand forms: the value constraints of R86 (spec 30_encoding.md), and the stream operand that must
be an accepted packet (43_framer.md R158, 44_decoder.md R180) with the fields read from it (30_encoding.md R60 to R63,
43_framer.md R159). -/

namespace Sys2Proof.Machine

/-! ### Value constraints (R86) -/

/-- The operand value constraints of R86; no other operand is constrained. -/
def operandsInRange (i : Instr) : Bool :=
  match i with
  | .getbit _ pos => decide (pos.toNat ≤ 7)
  | .getbits _ lo hi => decide (hi.toNat ≤ 7) && decide (lo.toNat ≤ hi.toNat)
  | .rocker code => decide (code.toNat ≤ 3)
  | .decode selector _ => decide (selector.toNat ≤ 2)
  | .adddata _ => true
  | .parse => true
  | .clrbuf => true
  | .bufsize => true
  | .crc8 _ => true
  | .crcvfy _ _ => true
  | .hinib _ => true
  | .lonib _ => true
  | .msb _ => true
  | .action _ => true
  | .cmdkind _ => true
  | .dimtime _ => true
  | .telegram _ => true
  | .detect _ => true
  | .pktclass _ => true

/-- Refuses `OperandRange` before any effect, recording the command word (R86, R233); else goes on with `k`. -/
def checkRange (i : Instr) (s : State) (k : Out) : Out :=
  if operandsInRange i then k else refuse (.operandRange i.commandWord) s

/-! ### Packets -/

/-- The six header bytes of a packet (R60). -/
structure Header where
  sync       : Byte
  lenHi      : Byte
  lenLo      : Byte
  optLen     : Byte
  packetType : Byte
  crc        : Byte
deriving DecidableEq, Repr

/-- The header at the front of a sequence; none when fewer than `HEADER_LEN` bytes stand there. -/
def headerOf : List Byte → Option Header
  | b0 :: b1 :: b2 :: b3 :: b4 :: b5 :: _ => some ⟨b0, b1, b2, b3, b4, b5⟩
  | _ => none

/-- `dataLen`, big-endian (R60). -/
def Header.dataLen (h : Header) : Nat := be16 h.lenHi h.lenLo

/-- Data and optional data together: what the body CRC covers (R63). -/
def Header.bodyLen (h : Header) : Nat := h.dataLen + h.optLen.toNat

/-- `totalPacketSize = HEADER_LEN + dataLen + optLen + 1` (R62). -/
def Header.totalSize (h : Header) : Nat := headerLen + h.bodyLen + 1

/-- The sync byte, and the header CRC over the four bytes at offsets 1 to 4 (R61, R156). No other field is checked
(R65). -/
def Header.valid (h : Header) : Bool :=
  h.sync == syncByte && h.crc == crc8 [h.lenHi, h.lenLo, h.optLen, h.packetType]

/-- The trailing byte is the CRC of the data followed by the optional data (R63). -/
def bodyValid (h : Header) (b : List Byte) : Bool :=
  bufRead b (headerLen + h.bodyLen) == some (crc8 ((b.drop headerLen).take h.bodyLen))

/-- `Accepted(s)` of R158. -/
def accepted (b : List Byte) : Bool :=
  match headerOf b with
  | some h => h.valid && b.length == h.totalSize && bodyValid h b
  | none => false

/-- `data(s)` of R159. -/
def packetData (h : Header) (b : List Byte) : List Byte := (b.drop headerLen).take h.dataLen

/-- `opt(s)` of R159. -/
def packetOpt (h : Header) (b : List Byte) : List Byte := (b.drop (headerLen + h.dataLen)).take h.optLen.toNat

/-- The check every decoder operation makes of its stream operand: refused `NotAPacket`, recording the command word and
the length word, unless the stream is an accepted packet (R180, R233). -/
def checkPacket (i : Instr) (d : List Byte) (s : State) (k : Out) : Out :=
  if accepted d then k else refuse (.notAPacket i.commandWord (lengthWord d)) s

end Sys2Proof.Machine
end

