-- ==== Sys2Proof/Machine/Bitfield.lean ====
section
/-! DEFINITION. The bit-field extractor (spec 42_bitfield.md): its functions, which the decoder uses too, and its
commands. None of them reads or writes the buffer. -/

namespace Sys2Proof.Machine

/-! ### The functions -/

/-- `bit(b, i) = (b >> i) & 1` (R120). -/
def bit (b : Byte) (i : Nat) : Byte := (b >>> i) &&& 1

/-- `bits(b, lo, hi) = (b >> lo) & (2^(hi-lo+1) - 1)` (R122). -/
def bits (b : Byte) (lo hi : Nat) : Byte := (b >>> lo) &&& BitVec.ofNat 8 (2 ^ (hi - lo + 1) - 1)

/-- `bit(b, i) = 1`, as the decoder's rules write their flags (R195, R198). -/
def bitSet (b : Byte) (i : Nat) : Bool := bit b i == 1

/-- The upper nibble (R124). -/
def hiNib (b : Byte) : Byte := (b >>> 4) &&& 0x0F

/-- The lower nibble (R126). -/
def loNib (b : Byte) : Byte := b &&& 0x0F

/-- The most significant bit (R128). -/
def msb (b : Byte) : Bool := bitSet b 7

/-- The rocker table on a 2-bit code: `11` is treated as `00` (R72, R130). A code above 3 is refused before this is
reached (R86), and the decoder only passes two bits. -/
def rockerOf (c : Byte) : Rocker :=
  if c == 1 then .up else if c == 2 then .down else .rest

/-- Pressed exactly when bit 5 of the status byte is set (R132). -/
def actionOf (status : Byte) : Action := if bitSet status 5 then .pressed else .released

/-- The command-kind table; every other value is none (R74, R134). -/
def kindOf (n : Byte) : Option CommandKind :=
  if n == 1 then some .switching
  else if n == 2 then some .dimming
  else if n == 3 then some .statusRequest
  else if n == 4 then some .statusResponse
  else none

/-- The dim time in seconds, computed exactly and narrowed to u16 at the end (R75, R136). -/
def dimTimeOf (r : Byte) : Word16 :=
  BitVec.ofNat 16 (if r.toNat ≤ 127 then r.toNat else (r.toNat - 127) * 60)

/-! ### The commands -/

/-- GETBIT (R120). -/
def execGetbit (byte pos : Byte) (s : State) : Out :=
  checkRange (.getbit byte pos) s (respond (.u8 (bit byte pos.toNat)) s)

/-- GETBITS (R122). -/
def execGetbits (byte lo hi : Byte) (s : State) : Out :=
  checkRange (.getbits byte lo hi) s (respond (.u8 (bits byte lo.toNat hi.toNat)) s)

/-- HINIB (R124). -/
def execHinib (byte : Byte) (s : State) : Out := respond (.u8 (hiNib byte)) s

/-- LONIB (R126). -/
def execLonib (byte : Byte) (s : State) : Out := respond (.u8 (loNib byte)) s

/-- MSB (R128). -/
def execMsb (byte : Byte) (s : State) : Out := respond (.bool (msb byte)) s

/-- ROCKER (R130). -/
def execRocker (code : Byte) (s : State) : Out :=
  checkRange (.rocker code) s (respond (.rocker (rockerOf code)) s)

/-- ACTION (R132). -/
def execAction (status : Byte) (s : State) : Out := respond (.action (actionOf status)) s

/-- CMDKIND (R134): every byte is accepted (D32). -/
def execCmdkind (nibble : Byte) (s : State) : Out := respond (.commandKind (kindOf nibble)) s

/-- DIMTIME (R136). -/
def execDimtime (raw : Byte) (s : State) : Out := respond (.seconds (dimTimeOf raw)) s

end Sys2Proof.Machine
end

