-- ==== Sys2Proof/Machine/Crc.lean ====
section
/-! DEFINITION. The CRC8 checksum engine's commands (spec 41_crc8.md). The checksum itself is `crc8` of
Machine/Ops.lean. -/

namespace Sys2Proof.Machine

/-- CRC8 (R102): `return crc8(D)`; no state is written. -/
def execCrc8 (d : List Byte) (s : State) : Out := respond (.u8 (crc8 d)) s

/-- CRCVFY (R104): `return (crc8(D) = A)`; no state is written. -/
def execCrcvfy (expected : Byte) (d : List Byte) (s : State) : Out := respond (.bool (crc8 d == expected)) s

end Sys2Proof.Machine
end

