-- ==== Sys2Proof/Machine/Decoder.lean ====
section
/-! DEFINITION. The profile-dispatch decoder (spec 44_decoder.md): the radio-telegram view, profile detection, the two
profile decodings and the packet classes. Every command is a function of its operands alone (10_state.md R29). -/

namespace Sys2Proof.Machine

/-! ### The radio-telegram view -/

/-- The fields of the optional data: destination id, sub-telegram number, signal strength, security level. Seven bytes
or more give them, fewer count as absent (R68, R69, R181). -/
def Telegram.withOptional (t : Telegram) (o : List Byte) : Telegram :=
  match o with
  | o0 :: o1 :: o2 :: o3 :: o4 :: o5 :: o6 :: _ =>
    { t with
      subTelNum := some o0
      destinationId := some (be32 o1 o2 o3 o4)
      dBm := -(o5.toNat : Int)
      securityLevel := some o6 }
  | _ => { t with subTelNum := none, destinationId := none, dBm := defaultDbm, securityLevel := none }

/-- The telegram in data region `d` and optional region `o`; none when `d` has no room for RORG, id and status (R66,
R67, R181). -/
def telegramIn (d o : List Byte) : Option Telegram :=
  if d.length < 6 then none
  else
    match bufRead d 0, be32At d (d.length - 5), bufRead d (d.length - 1) with
    | some rorg, some senderId, some status =>
      some (Telegram.withOptional
        { rorg := rorg, senderId := senderId, destinationId := none, status := status, subTelNum := none,
          dBm := defaultDbm, securityLevel := none, payload := (d.drop 1).take (d.length - 6) } o)
    | _, _, _ => none

/-- `telegramOf(D)` for an accepted packet (R181). -/
def telegramOf (b : List Byte) : Option Telegram :=
  match headerOf b with
  | some h => if h.packetType == typeRadio then telegramIn (packetData h b) (packetOpt h b) else none
  | none => none

/-! ### Profiles -/

/-- `detectProfile(t)` (R188). -/
def detectProfile (t : Telegram) : Option Profile :=
  if t.rorg == rorgRps then some .twoRocker
  else if t.rorg == rorgVld then
    match t.payload with
    | p0 :: _ => if (kindOf (hiNib p0)).isSome then some .relayDimmer else none
    | [] => none
  else none

/-- `decodeRocker(t)` on the first payload byte `b` (R71, R195). -/
def decodeRocker (b : Byte) (t : Telegram) : TwoRockerEvent :=
  { rockerA := rockerOf (bits b 5 6)
    rockerB := rockerOf (bits b 1 2)
    energyBow := bitSet b 4
    secondAction := bitSet b 0
    action := actionOf t.status
    senderId := t.senderId
    dBm := t.dBm }

/-- The common part of `decodeRelay(t)` for a known kind, with the initial field values of R184: the channel is the low
nibble of the first byte, overridden by a second byte masked to five bits (R197). -/
def relayBase (kind : CommandKind) (p0 : Byte) (tail : List Byte) (t : Telegram) : RelayEvent :=
  { channel := match tail with
      | p1 :: _ => p1 &&& channelMask
      | [] => loNib p0
    command := kind
    outputOn := false
    outputLevel := 0
    dimValue := none
    dimTime := none
    senderId := t.senderId
    dBm := t.dBm }

/-- `switching`: the on/off bit is bit 0 of the third byte if there is one, else of the second (R198). `tail` is the
payload behind its first byte. -/
def applySwitching (tail : List Byte) (ev : RelayEvent) : RelayEvent :=
  let on := match tail with
    | _ :: p2 :: _ => bitSet p2 0
    | [p1] => bitSet p1 0
    | [] => ev.outputOn
  { ev with outputOn := on, outputLevel := if on then 100 else 0 }

/-- `dimming`: the level is the whole third byte, the dim time the fourth (R199). -/
def applyDimming (tail : List Byte) (ev : RelayEvent) : RelayEvent :=
  match tail with
  | _ :: p2 :: p3 :: _ =>
    { ev with outputLevel := p2, outputOn := decide (p2.toNat > 0), dimValue := some p2, dimTime := some (dimTimeOf p3) }
  | [_, p2] => { ev with outputLevel := p2, outputOn := decide (p2.toNat > 0), dimValue := some p2 }
  | [_] => ev
  | [] => ev

/-- `status_response`: the level is the whole third byte; no dim field is written (R201). -/
def applyStatusResponse (tail : List Byte) (ev : RelayEvent) : RelayEvent :=
  match tail with
  | _ :: p2 :: _ => { ev with outputLevel := p2, outputOn := decide (p2.toNat > 0) }
  | [_] => ev
  | [] => ev

/-- The rule of the command kind (R198 to R201); `status_request` writes nothing but the channel (R200). The asymmetry
is the spec's (R203). -/
def applyKind (kind : CommandKind) (tail : List Byte) (ev : RelayEvent) : RelayEvent :=
  match kind with
  | .switching => applySwitching tail ev
  | .dimming => applyDimming tail ev
  | .statusRequest => ev
  | .statusResponse => applyStatusResponse tail ev

/-- `decodeRelay(t)` on payload `p0 :: tail`; none for an unknown command nibble (R197). -/
def decodeRelay (p0 : Byte) (tail : List Byte) (t : Telegram) : Option RelayEvent :=
  (kindOf (hiNib p0)).map (fun kind => applyKind kind tail (relayBase kind p0 tail t))

/-- The profile a selector of R89 names, `auto` being detected (R193). Selector values above 2 are refused before this
is reached (R86). -/
def selectProfile (selector : Byte) (t : Telegram) : Option Profile :=
  if selector == 0 then detectProfile t
  else if selector == 1 then some .twoRocker
  else some .relayDimmer

/-- DECODE's result on a telegram: none where no profile is found or the payload is empty (R193). -/
def decodeTelegram (selector : Byte) (t : Telegram) : Option Event :=
  match selectProfile selector t, t.payload with
  | some .twoRocker, b :: _ => some (.twoRocker (decodeRocker b t))
  | some .relayDimmer, p0 :: tail => (decodeRelay p0 tail t).map Event.relayDimmer
  | some _, [] => none
  | none, _ => none

/-- The dispatch class of a packet type code (R64, R205). -/
def classOf (packetType : Byte) : PacketClass :=
  if packetType == typeRadio then .radio
  else if packetType == typeResponse then .response
  else if packetType == typeEvent then .event
  else .other

/-- The dispatch class of an accepted packet (R205). -/
def packetClassOf (b : List Byte) : PacketClass :=
  match headerOf b with
  | some h => classOf h.packetType
  | none => .other

/-! ### The commands -/

/-- TELEGRAM (R185). -/
def execTelegram (d : List Byte) (s : State) : Out :=
  checkPacket (.telegram d) d s (respond (.telegram (telegramOf d)) s)

/-- DETECT (R190). -/
def execDetect (d : List Byte) (s : State) : Out :=
  checkPacket (.detect d) d s (respond (.profile ((telegramOf d).bind detectProfile)) s)

/-- DECODE (R193): the operand range is checked before the packet (R234). -/
def execDecode (selector : Byte) (d : List Byte) (s : State) : Out :=
  checkRange (.decode selector d) s
    (checkPacket (.decode selector d) d s (respond (.event ((telegramOf d).bind (decodeTelegram selector))) s))

/-- PKTCLASS (R205). -/
def execPktclass (d : List Byte) (s : State) : Out :=
  checkPacket (.pktclass d) d s (respond (.packetClass (packetClassOf d)) s)

end Sys2Proof.Machine
end

