-- ==== Sys2Proof/Machine/Framer.lean ====
section
/-! DEFINITION. The packet framer (spec 43_framer.md): the only unit that reads or writes the buffer. -/

namespace Sys2Proof.Machine

/-! ### PARSE's loop (R154) -/

/-- What one pass of the loop decides about the working copy. -/
inductive Pass where
  /-- The loop ends with `left` in the buffer. -/
  | stop (left : List Byte)
  /-- A check failed: exactly one byte was dropped behind the sync search (R156, R158). -/
  | resync (left : List Byte)
  /-- A packet was sliced out (R159). -/
  | packet (p left : List Byte)
deriving DecidableEq, Repr

/-- Steps (a) and (b) of R154: drops the bytes before the first sync byte; empty when there is none (R155). -/
def toSync (b : List Byte) : List Byte := b.dropWhile (fun x => x != syncByte)

/-- Steps (c) to (g) of R154, on a working copy that starts at a sync byte or is empty. The empty copy is step (a)'s
exit: both leave it as it is. -/
def passAligned (b : List Byte) : Pass :=
  match headerOf b with
  | none => .stop b
  | some h =>
    if h.valid then
      if b.length < h.totalSize then .stop b
      else if bodyValid h b then .packet (b.take h.totalSize) (bufDrop h.totalSize b)
      else .resync (bufDrop 1 b)
    else .resync (bufDrop 1 b)

/-- One pass of the loop. The loop guard is tested before the sync search, so a buffer of fewer than six bytes stays
even when it holds no sync byte (R154 corner case 1). -/
def parsePass (b : List Byte) : Pass :=
  if b.length < headerLen then .stop b else passAligned (toSync b)

/-- The loop, bounded by `fuel` passes: the packets in the order accepted, and the working copy left. -/
def parseLoop : Nat → List Byte → List (List Byte) × List Byte
  | 0, b => ([], b)
  | fuel + 1, b =>
    match parsePass b with
    | .stop left => ([], left)
    | .resync left => parseLoop fuel left
    | .packet p left => (p :: (parseLoop fuel left).1, (parseLoop fuel left).2)

/-- PARSE's result and the buffer it leaves. Every pass that does not end the loop drops at least one byte (R161), so
`|BUF|` passes are enough and the bound is never what ends the loop. -/
def parseBuffer (b : List Byte) : List (List Byte) × List Byte := parseLoop b.length b

/-! ### Capacities (R9) -/

/-- `n` bytes fit a `BUF_CAP` (R152). -/
def fitsCapacity (cap : Option Nat) (n : Nat) : Bool :=
  match cap with
  | none => true
  | some c => decide (n ≤ c)

/-- The packets, counted from `k`, whose index `keep` holds of, in order. -/
def selectFrom (keep : Nat → Bool) : Nat → List (List Byte) → List (List Byte)
  | _, [] => []
  | k, p :: ps => if keep k then p :: selectFrom keep (k + 1) ps else selectFrom keep (k + 1) ps

/-- What PARSE delivers of the packets `ps` it framed from buffer `b`: all of them (R154), unless a finite `RESULT_CAP`
is too small, where which are delivered is free, at most `RESULT_CAP` of them and in order. DESIGN CHOICE: the capacity
counts packets, not bytes; R9 gives it no unit (notes/assumptions/4.md). -/
def delivered (cap : Option Nat) (b : List Byte) (ps : List (List Byte)) : List (List Byte) :=
  match cap with
  | none => ps
  | some c => if ps.length ≤ c then ps else (selectFrom (Config.keepsPacket c b) 0 ps).take c

/-! ### The commands -/

/-- ADDDATA (R150): appends, or under a finite `BUF_CAP` that would be exceeded faults and leaves `BUF` (R152). -/
def execAdddata (d : List Byte) (s : State) : Out :=
  if fitsCapacity s.config.bufCap (s.buf.length + d.length) then
    respond .ack (s.bufAppend d)
  else
    overflow (Instr.adddata d).commandWord (lengthWord d) s

/-- PARSE (R154), its result under `RESULT_CAP` (R9). The buffer left does not depend on that capacity. -/
def execParse (s : State) : Out :=
  respond (.packets (delivered s.config.resultCap s.buf (parseBuffer s.buf).1)) (s.setBuf (parseBuffer s.buf).2)

/-- CLRBUF (R163): the marks are not cleared. -/
def execClrbuf (s : State) : Out := respond .ack (s.setBuf [])

/-- BUFSIZE (R165). -/
def execBufsize (s : State) : Out := respond (.size s.buf.length) s

end Sys2Proof.Machine
end

