-- ==== Sys2Proof/Machine/Dispatch.lean ====
section
/-! DEFINITION. One arm per command of the opcode map (spec 30_encoding.md R84), each a call of its meaning. -/

namespace Sys2Proof.Machine

def exec (i : Instr) (s : State) : Host.Outcome State Fault Refusal :=
  match i with
  | .adddata d => Sys2Proof.Machine.execAdddata d s
  | .parse => Sys2Proof.Machine.execParse s
  | .clrbuf => Sys2Proof.Machine.execClrbuf s
  | .bufsize => Sys2Proof.Machine.execBufsize s
  | .crc8 d => Sys2Proof.Machine.execCrc8 d s
  | .crcvfy expected d => Sys2Proof.Machine.execCrcvfy expected d s
  | .getbit byte pos => Sys2Proof.Machine.execGetbit byte pos s
  | .getbits byte lo hi => Sys2Proof.Machine.execGetbits byte lo hi s
  | .hinib byte => Sys2Proof.Machine.execHinib byte s
  | .lonib byte => Sys2Proof.Machine.execLonib byte s
  | .msb byte => Sys2Proof.Machine.execMsb byte s
  | .rocker code => Sys2Proof.Machine.execRocker code s
  | .action status => Sys2Proof.Machine.execAction status s
  | .cmdkind nibble => Sys2Proof.Machine.execCmdkind nibble s
  | .dimtime raw => Sys2Proof.Machine.execDimtime raw s
  | .telegram d => Sys2Proof.Machine.execTelegram d s
  | .detect d => Sys2Proof.Machine.execDetect d s
  | .decode selector d => Sys2Proof.Machine.execDecode selector d s
  | .pktclass d => Sys2Proof.Machine.execPktclass d s

end Sys2Proof.Machine
end

