-- ==== Sys2Proof/Machine/Step.lean ====
section
/-! DEFINITION. One step: the block takes the command at the front of its port and performs it to completion (spec
00_scope.md R14, 20_memory.md R49, 70_reset_and_hazards.md R265). Commands behind it wait on the port. -/

namespace Sys2Proof.Machine

/-- One command, from the port to its answer. The command's bytes leave the port whatever its outcome (R85, R87). -/
def step (s : State) : Host.Outcome State Fault Refusal :=
  match decode s.port with
  | .incomplete => awaitCommand s
  | .illegalOpcode cw rest => refuse (.illegalOpcode cw) (s.setPort rest)
  | .reservedField cw rest => refuse (.reservedField cw) (s.setPort rest)
  | .command i rest => exec i (s.setPort rest)

/-- The host issues the instruction whose table bits are `w` (see `tableBytes`), in front of whatever stands on the
port, so that the next step performs exactly it. ENO-RX has no program store (R24, R52): a program is the sequence of
commands the host issues (notes/assumptions/1.md). -/
def State.withFetchWord (s : State) (nbits w : Nat) : State := s.setPort (tableBytes nbits w ++ s.port)

end Sys2Proof.Machine
end

