-- ==== Sys2Proof/Machine/Response.lean ====
section
/-! DEFINITION. The codes of the enumerations (spec 30_encoding.md R89), the byte encoding of the responses (R88) and
the cause codes of refusals and faults (60_exceptions.md R233). `State.answer` holds the typed answer; these functions
say which bytes the port carries for it. -/

namespace Sys2Proof.Machine

/-! ### Enumeration codes (R89) -/

/-- Rocker codes: none 0, up 1, down 2. -/
def Rocker.code : Rocker → Byte
  | .rest => 0
  | .up => 1
  | .down => 2

/-- Action codes: released 0, pressed 1. -/
def Action.code : Action → Byte
  | .released => 0
  | .pressed => 1

/-- CommandKind codes: none 0, then the command nibble of R74. -/
def kindCode : Option CommandKind → Byte
  | none => 0
  | some .switching => 1
  | some .dimming => 2
  | some .statusRequest => 3
  | some .statusResponse => 4

/-- Profile codes: none 0, twoRocker 1, relayDimmer 2. -/
def profileCode : Option Profile → Byte
  | none => 0
  | some .twoRocker => 1
  | some .relayDimmer => 2

/-- Class codes: other 0, else the packet type code of R64. -/
def PacketClass.code : PacketClass → Byte
  | .other => 0
  | .radio => 1
  | .response => 2
  | .event => 4

/-- A `Bool` where a byte is needed (R11). -/
def boolByte (b : Bool) : Byte := if b then 1 else 0

/-! ### Response bytes (R88) -/

/-- A count as the u32 of R88; none when it does not fit, where the typed response keeps the number (R165). -/
def countBytes (n : Nat) : Option (List Byte) :=
  if n < 2 ^ 32 then some (bytes32 (BitVec.ofNat 32 n)) else none

/-- The byte encoding of a response; none where R88 defines none (the telegram and event records). -/
def Response.bytes : Response → Option (List Byte)
  | .ack => some []
  | .packets ps => (countBytes ps.length).map (fun c => c ++ ps.flatten)
  | .size n => countBytes n
  | .u8 v => some [v]
  | .bool b => some [boolByte b]
  | .rocker r => some [r.code]
  | .action a => some [a.code]
  | .commandKind k => some [kindCode k]
  | .seconds t => some (bytes16 t)
  | .telegram _ => none
  | .profile p => some [profileCode p]
  | .event _ => none
  | .packetClass c => some [c.code]

/-! ### Cause codes (R233) -/

/-- The cause code of a refusal. -/
def RefusalReport.code : RefusalReport → Byte
  | .illegalOpcode _ => 0x01
  | .reservedField _ => 0x02
  | .operandRange _ => 0x03
  | .notAPacket _ _ => 0x04

/-- The cause code of a fault. -/
def FaultReport.code : FaultReport → Byte
  | .bufferOverflow _ _ _ => 0x80

/-- The cause code of a non-response answer (R233); none for a response. -/
def Answer.cause : Answer → Option Byte
  | .response _ => none
  | .refused r => some r.code
  | .faulted f => some f.code

end Sys2Proof.Machine
end

