-- ==== Sys2Proof/Machine/Session.lean ====
section
/-! DEFINITION. The HOST's duties towards the block (spec 60_exceptions.md R245 to R254). None of this is state or
behaviour of ENO-RX: 00_scope.md R7 leaves the Session Manager out of the block and 10_state.md R31 says its state is
the host's, so `State` holds none of it and `step` calls none of it. It stands here because R245 to R254 are normative
for a model of the host. What it takes the rules to mean where they do not say is notes/assumptions/9.md. -/

namespace Sys2Proof.Machine

/-! ### What the host does outwards -/

/-- The outward events of the host (R249). -/
inductive HostEvent where
  | connected
  | disconnected
  | packet (p : List Byte)
  | radioTelegram (t : Telegram)
  | profileEvent (e : Event)
  | error
deriving DecidableEq, Repr

/-- What the host does to the serial transport. -/
inductive TransportAct where
  | openPort
  | closePort
  | write (bytes : List Byte)
deriving DecidableEq, Repr

/-- What a call of the host returns to its caller: success, the error of a failed explicit connect (R251), a
`sendCommand` while not connected (R253), or a missing configuration (R254). -/
inductive Reply where
  | done
  | openError
  | notConnected
  | configurationError
deriving DecidableEq, Repr

/-! ### The session -/

/-- The connection states (R251). `connecting true` follows an explicit connect, `connecting false` a reconnect timer:
a failure of the first is surfaced to the caller and does not enter the reconnect cycle. -/
inductive Phase where
  | disconnected
  | connecting (explicit : Bool)
  | connected
  | reconnecting
deriving DecidableEq, Repr

/-- The Session State (R31): the phase, the reconnect attempt counter, and the delay in milliseconds of the one pending
reconnect timer. -/
structure Session where
  phase    : Phase
  attempts : Nat
  timer    : Option Nat
deriving DecidableEq, Repr

/-- The initial session: disconnected (R251). -/
def Session.initial : Session := { phase := .disconnected, attempts := 0, timer := none }

/-- What happens to the host. `connect configured` says whether a port and a baud rate are given (R254). -/
inductive SessionInput where
  | connect (configured : Bool)
  | opened
  | openFailed
  | transportError
  | transportClosed
  | timerFired
  | disconnect
  | chunk (bytes : List Byte)
  | send (bytes : List Byte)
deriving DecidableEq, Repr

/-- The host's answer to one input: its next session, the commands it issues to the block in order, and what it does
outwards. -/
structure Reaction where
  session   : Session
  commands  : List Instr := []
  events    : List HostEvent := []
  transport : List TransportAct := []
  reply     : Option Reply := none
deriving DecidableEq, Repr

/-- `maxReconnectAttempts` (R8). -/
def maxReconnectAttempts : Nat := 5

/-- `delay(n) = min(1000 * 2^n, 30000)` milliseconds (R252). -/
def reconnectDelay (n : Nat) : Nat := min (1000 * 2 ^ n) 30000

/-- One more consecutive failure: the counter is incremented first, then a reconnect is scheduled, unless the attempts
are exhausted, which leaves the session disconnected (R252, R254). -/
def Session.retry (s : Session) : Session :=
  let n := s.attempts + 1
  if n ≤ maxReconnectAttempts then
    { phase := .reconnecting, attempts := n, timer := some (reconnectDelay n) }
  else
    { phase := .disconnected, attempts := n, timer := none }

/-- The connection is lost while connected: the framer is cleared and a reconnect scheduled (R250, R252). -/
def Session.lost (s : Session) (events : List HostEvent) : Reaction :=
  { session := s.retry, commands := [.clrbuf], events := events }

/-- An explicit disconnect (R250): pending timer cancelled, transport closed if open, framer cleared. DESIGN CHOICE: the
transport counts as open in phase `connected` only (notes/assumptions/9.md). -/
def Session.leave (s : Session) : Reaction :=
  { session := { s with phase := .disconnected, timer := none }
    commands := [.clrbuf]
    events := if s.phase == .connected then [.disconnected] else []
    transport := if s.phase == .connected then [.closePort] else []
    reply := some .done }

/-- The host's reaction (R246, R250 to R254). An input the rules give no meaning in a phase leaves the session and does
nothing. DESIGN CHOICE: so does an error or close in any phase but `connected` (it counts as no further failure), and an
open that completes or fails outside `connecting` (notes/assumptions/9.md). -/
def Session.step (s : Session) (e : SessionInput) : Reaction :=
  match e, s.phase with
  | .connect false, _ => { session := s, reply := some .configurationError }
  | .connect true, .disconnected => { session := { s with phase := .connecting true }, transport := [.openPort] }
  | .connect true, _ => { session := s }
  | .opened, .connecting explicit =>
    { session := { phase := .connected, attempts := 0, timer := none }
      events := [.connected]
      reply := if explicit then some .done else none }
  | .opened, _ => { session := s }
  | .openFailed, .connecting true => { session := { s with phase := .disconnected }, reply := some .openError }
  | .openFailed, .connecting false => { session := s.retry, events := [.error] }
  | .openFailed, _ => { session := s }
  | .transportError, .connected => s.lost [.error, .disconnected]
  | .transportError, _ => { session := s }
  | .transportClosed, .connected => s.lost [.disconnected]
  | .transportClosed, _ => { session := s }
  | .timerFired, .reconnecting =>
    { session := { s with phase := .connecting false, timer := none }, transport := [.openPort] }
  | .timerFired, _ => { session := s }
  | .disconnect, _ => s.leave
  | .chunk d, .connected => { session := s, commands := feed d }
  | .chunk _, _ => { session := s }
  | .send d, .connected => { session := s, transport := [.write d], reply := some .done }
  | .send _, _ => { session := s, reply := some .notConnected }

/-- The reactions to a list of inputs, in order. -/
def Session.run (s : Session) : List SessionInput → List Reaction
  | [] => []
  | e :: es => s.step e :: (s.step e).session.run es

/-! ### The host with its block -/

/-- The response delivered by the last command, if it was one. -/
def State.response (b : State) : Option Response :=
  match b.answer with
  | some (.response r) => some r
  | some (.refused _) => none
  | some (.faulted _) => none
  | none => none

/-- The block after one command of the host; a stop, which no command makes, would leave it. -/
def issue (b : State) (i : Instr) : State :=
  match exec i b with
  | .next t => t
  | .fault _ => b
  | .refused _ => b

/-- The host dispatches one packet by the class PKTCLASS answers: a radio packet by TELEGRAM and then DECODE auto
(R247), an event or response packet whole, another class not at all (R248). -/
def dispatchPacket (b : State) (p : List Byte) : State × List HostEvent :=
  let classed := issue b (.pktclass p)
  match classed.response with
  | some (.packetClass .radio) =>
    let viewed := issue classed (.telegram p)
    match viewed.response with
    | some (.telegram (some t)) =>
      let decoded := issue viewed (.decode 0 p)
      match decoded.response with
      | some (.event (some e)) => (decoded, [.radioTelegram t, .profileEvent e])
      | _ => (decoded, [.radioTelegram t])
    | _ => (viewed, [])
  | some (.packetClass .response) => (classed, [.packet p])
  | some (.packetClass .event) => (classed, [.packet p])
  | _ => (classed, [])

/-- Every packet in order (R246). -/
def dispatchAll (b : State) : List (List Byte) → State × List HostEvent
  | [] => (b, [])
  | p :: ps =>
    let first := dispatchPacket b p
    let rest := dispatchAll first.1 ps
    (rest.1, first.2 ++ rest.2)

/-- One host and its block. -/
structure Site where
  session : Session
  block   : State
deriving DecidableEq, Repr

/-- The packets to dispatch: those PARSE returned, where PARSE was the last command issued (R246). -/
def parsedPackets (cmds : List Instr) (b : State) : List (List Byte) :=
  match cmds.getLast?, b.response with
  | some .parse, some (.packets ps) => ps
  | _, _ => []

/-- One input: the host issues its commands to the block, then dispatches what PARSE returned, before it takes the next
input (R246, R265). The events follow those of the session's own reaction. -/
def Site.step (w : Site) (e : SessionInput) : Site × List HostEvent :=
  let r := w.session.step e
  let b := r.commands.foldl issue w.block
  let d := dispatchAll b (parsedPackets r.commands b)
  ({ session := r.session, block := d.1 }, r.events ++ d.2)

end Sys2Proof.Machine
end

