-- ==== Sys2Proof/Safety.lean ====
section
/-! DEFINITION. What counts as a sound state and a good run of ENO-RX, in the terms the claims use. A run is good when
it never set a mark (spec 10_state.md R30, 60_exceptions.md R236, R237): `State.unmarked`. -/

namespace Sys2Proof.Machine

/-- What every response that carries data satisfies, whatever the operands were: packets are accepted packets (R158),
a nibble table's seconds stay within 7680 (R75), signal strength within -255..0 (R182), a relay event's channel within
0..31 (R197), its level 0 or 100 when switching (R198) and no dim field unless dimming (R198, R200, R201). -/
def Response.Sound : Response → Prop
  | .packets ps => ∀ p ∈ ps, accepted p = true
  | .seconds t => t.toNat ≤ 7680
  | .telegram (some t) => -255 ≤ t.dBm ∧ t.dBm ≤ 0
  | .event (some (.twoRocker e)) => -255 ≤ e.dBm ∧ e.dBm ≤ 0
  | .event (some (.relayDimmer e)) =>
    e.channel.toNat ≤ 31 ∧ -255 ≤ e.dBm ∧ e.dBm ≤ 0 ∧
    (e.command = .switching → e.outputLevel = if e.outputOn then 100 else 0) ∧
    (e.command ≠ .dimming → e.dimValue = none ∧ e.dimTime = none) ∧
    (∀ t, e.dimTime = some t → t.toNat ≤ 7680)
  | _ => True

/-- The invariant every step keeps. -/
structure State.Inv (s : State) : Prop where
  /-- A finite buffer is never overfull (R152). -/
  bufFits : ∀ c, s.config.bufCap = some c → s.buf.length ≤ c
  /-- A PARSE never delivers more packets than a finite result holds; that it holds packets, R9 giving no unit, is the
  model's choice (notes/assumptions/4.md). -/
  resultFits : ∀ c, s.config.resultCap = some c → ∀ ps, s.answer = some (.response (.packets ps)) → ps.length ≤ c
  /-- A refusal is never delivered without its mark (R236). -/
  refusalMarked : ∀ r, s.answer = some (.refused r) → s.refused = true
  /-- A fault is never delivered without its mark (R237). -/
  faultMarked : ∀ f, s.answer = some (.faulted f) → s.faulted = true
  /-- The unbounded instance never faults (R152, R231). -/
  faultNeedsCapacity : s.faulted = true → s.config.bufCap ≠ none
  /-- The data of a response is sound. -/
  responseSound : ∀ r, s.answer = some (.response r) → r.Sound

end Sys2Proof.Machine
end

