-- ==== Sys2Proof/Certificates/Slice0/Obligations.lean ====
section
/-! DEFINITION. The statements about ENO-RX for the provers. The vocabulary (namespace `Sys2Proof.Claims`) says in the
spec's own terms, over indices and unsigned integers, what the meanings compute over bit vectors and patterns: it uses
none of the machine's own arithmetic, checksum, packet check, loop or telegram view. -/

open Sys2Proof Sys2Proof.Machine

namespace Sys2Proof.Claims

/-! ### Ends of a command -/

/-- The command answers response `r` and leaves every other field of the state as it was. -/
def Answers (o : Out) (s : State) (r : Response) : Prop :=
  o = .next { s with answer := some (.response r) }

/-- The command answers response `r`, leaves `b` in the buffer and every other field as it was. -/
def AnswersLeaving (o : Out) (s : State) (b : List Byte) (r : Response) : Prop :=
  o = .next { s with buf := b, answer := some (.response r) }

/-- The command is refused: the mark is set, the report delivered, every other field is as it was (R236). -/
def Refuses (o : Out) (s : State) (r : RefusalReport) : Prop :=
  o = .next { s with refused := true, answer := some (.refused r) }

/-! ### The formats of R81, as bytes on the port

Each says what one step does with a command of opcode `op` in that format whose bytes stand at the front of the port:
its must-be-zero fields are checked, its bytes leave the port, and the command is performed. That a stream command
refused for a must-be-zero field takes its length word and stream with it (`FormatS`, `FormatSA`) is the model's reading
of R87 (notes/assumptions/7.md). -/

/-- The command word of four bytes, most significant first (R44, R80). -/
def wordOf (b0 b1 b2 b3 : Byte) : Word32 := b0 ++ b1 ++ b2 ++ b3

/-- The step refuses `ReservedField`, having consumed the command. -/
def ReservedRefusal (s : State) (rest : List Byte) (op a p q : Byte) : Prop :=
  Refuses (step s) { s with port := rest } (.reservedField (wordOf op a p q))

def FormatN (op : Byte) (i : Instr) : Prop :=
  ∀ (s : State) (a p q : Byte) (rest : List Byte), s.port = op :: a :: p :: q :: rest →
    (a = 0 ∧ p = 0 ∧ q = 0 → step s = exec i { s with port := rest }) ∧
    (¬(a = 0 ∧ p = 0 ∧ q = 0) → ReservedRefusal s rest op a p q)

def FormatB (op : Byte) (i : Byte → Instr) : Prop :=
  ∀ (s : State) (a p q : Byte) (rest : List Byte), s.port = op :: a :: p :: q :: rest →
    (p = 0 ∧ q = 0 → step s = exec (i a) { s with port := rest }) ∧
    (¬(p = 0 ∧ q = 0) → ReservedRefusal s rest op a p q)

def FormatBP (op : Byte) (i : Byte → Byte → Instr) : Prop :=
  ∀ (s : State) (a p q : Byte) (rest : List Byte), s.port = op :: a :: p :: q :: rest →
    (q = 0 → step s = exec (i a p) { s with port := rest }) ∧
    (q ≠ 0 → ReservedRefusal s rest op a p q)

def FormatBPQ (op : Byte) (i : Byte → Byte → Byte → Instr) : Prop :=
  ∀ (s : State) (a p q : Byte) (rest : List Byte), s.port = op :: a :: p :: q :: rest →
    step s = exec (i a p q) { s with port := rest }

/-- The length word `l0 l1 l2 l3`, most significant byte first, counts the bytes of `d` (R82). -/
def Counts (l0 l1 l2 l3 : Byte) (d : List Byte) : Prop :=
  d.length = l0.toNat * 2 ^ 24 + l1.toNat * 2 ^ 16 + l2.toNat * 2 ^ 8 + l3.toNat

def FormatS (op : Byte) (i : List Byte → Instr) : Prop :=
  ∀ (s : State) (a p q l0 l1 l2 l3 : Byte) (d rest : List Byte),
    s.port = op :: a :: p :: q :: l0 :: l1 :: l2 :: l3 :: (d ++ rest) → Counts l0 l1 l2 l3 d →
    (a = 0 ∧ p = 0 ∧ q = 0 → step s = exec (i d) { s with port := rest }) ∧
    (¬(a = 0 ∧ p = 0 ∧ q = 0) → ReservedRefusal s rest op a p q)

def FormatSA (op : Byte) (i : Byte → List Byte → Instr) : Prop :=
  ∀ (s : State) (a p q l0 l1 l2 l3 : Byte) (d rest : List Byte),
    s.port = op :: a :: p :: q :: l0 :: l1 :: l2 :: l3 :: (d ++ rest) → Counts l0 l1 l2 l3 d →
    (p = 0 ∧ q = 0 → step s = exec (i a d) { s with port := rest }) ∧
    (¬(p = 0 ∧ q = 0) → ReservedRefusal s rest op a p q)

/-! ### The opcode map as numbers (R84, R85) -/

/-- The reserved opcodes, range by range, as R85 lists them. -/
def ReservedOpcode (op : Byte) : Prop :=
  op.toNat = 0 ∨ (0x05 ≤ op.toNat ∧ op.toNat ≤ 0x0F) ∨ (0x12 ≤ op.toNat ∧ op.toNat ≤ 0x1F) ∨
    (0x29 ≤ op.toNat ∧ op.toNat ≤ 0x2F) ∨ 0x34 ≤ op.toNat

/-- The opcodes of format S and SA (R84). -/
def StreamOpcode (op : Byte) : Prop :=
  op ∈ ([0x01, 0x10, 0x11, 0x30, 0x31, 0x32, 0x33] : List Byte)

/-- The opcodes whose format leaves `A` must be zero: N and S (R81, R84). -/
def NoAOpcode (op : Byte) : Prop :=
  op ∈ ([0x01, 0x02, 0x03, 0x04, 0x10, 0x30, 0x31, 0x33] : List Byte)

/-- Some must-be-zero field of the command is nonzero (R81, R83): `A` in formats N and S, `P` in all but BP and BPQ,
`Q` in all but BPQ. -/
def BreaksReserved (op a p q : Byte) : Prop :=
  (NoAOpcode op ∧ a ≠ 0) ∨ (op ≠ 0x20 ∧ op ≠ 0x21 ∧ p ≠ 0) ∨ (op ≠ 0x21 ∧ q ≠ 0)

/-- Some operand violates R86. -/
def BreaksRange (op a p q : Byte) : Prop :=
  (op = 0x20 ∧ 7 < p.toNat) ∨ (op = 0x21 ∧ (7 < q.toNat ∨ q.toNat < p.toNat)) ∨
    (op = 0x25 ∧ 3 < a.toNat) ∨ (op = 0x32 ∧ 2 < a.toNat)

/-- The opcodes whose stream must be an accepted packet (R180). -/
def PacketOpcode (op : Byte) : Prop := op ∈ ([0x30, 0x31, 0x32, 0x33] : List Byte)

/-- The front of a port holds the whole command `op a p q` with stream `d` (empty for the four-byte formats and for a
reserved opcode), and `rest` behind it (R82, R85, R87). -/
def HoldsCommand (port : List Byte) (op a p q : Byte) (d rest : List Byte) : Prop :=
  (¬StreamOpcode op ∧ d = [] ∧ port = op :: a :: p :: q :: rest) ∨
    (StreamOpcode op ∧ ∃ l0 l1 l2 l3, Counts l0 l1 l2 l3 d ∧
      port = op :: a :: p :: q :: l0 :: l1 :: l2 :: l3 :: (d ++ rest))

/-! ### The checksum over unsigned integers (R100) -/

/-- One round: `(acc << 1) & 0xFF`, XORed with the polynomial when bit 7 was set. -/
def crcBit (acc : Nat) : Nat := if 128 ≤ acc then (2 * acc % 256) ^^^ 7 else 2 * acc

/-- Eight rounds. -/
def crcByte (acc : Nat) : Nat :=
  crcBit (crcBit (crcBit (crcBit (crcBit (crcBit (crcBit (crcBit acc)))))))

/-- `crc8(s)` of R100. -/
def crcSum (s : List Byte) : Nat := s.foldl (fun acc b => crcByte (acc ^^^ b.toNat)) 0

/-! ### Packets by index (R12, R60 to R63, R158, R159) -/

/-- `s[i]` as an unsigned integer; 0 outside the sequence, where no rule reads it. -/
def at' (s : List Byte) (i : Nat) : Nat := (s.getD i 0).toNat

/-- `s[i..j)` of R12. -/
def slice (s : List Byte) (i j : Nat) : List Byte := (s.take j).drop i

/-- `BE16(s, i)` of R12. -/
def BE16 (s : List Byte) (i : Nat) : Nat := at' s i * 256 + at' s (i + 1)

/-- `BE32(s, i)` of R12. -/
def BE32 (s : List Byte) (i : Nat) : Nat :=
  at' s i * 2 ^ 24 + at' s (i + 1) * 2 ^ 16 + at' s (i + 2) * 2 ^ 8 + at' s (i + 3)

/-- `totalPacketSize` of R62. -/
def totalSize (s : List Byte) : Nat := 7 + BE16 s 1 + at' s 3

/-- Sync byte and header CRC (R61, R156). -/
def HeaderOk (s : List Byte) : Prop := at' s 0 = 0x55 ∧ at' s 5 = crcSum (slice s 1 5)

/-- Body CRC (R63). -/
def BodyOk (s : List Byte) : Prop := at' s (totalSize s - 1) = crcSum (slice s 6 (totalSize s - 1))

/-- `Accepted(s)` of R158. -/
def IsPacket (s : List Byte) : Prop :=
  6 ≤ s.length ∧ at' s 0 = 0x55 ∧ at' s 5 = crcSum (slice s 1 5) ∧
    s.length = 7 + BE16 s 1 + at' s 3 ∧ at' s (s.length - 1) = crcSum (slice s 6 (s.length - 1))

/-- `data(s)` of R159. -/
def dataOf (s : List Byte) : List Byte := slice s 6 (6 + BE16 s 1)

/-- `opt(s)` of R159. -/
def optOf (s : List Byte) : List Byte := slice s (6 + BE16 s 1) (6 + BE16 s 1 + at' s 3)

/-! ### The loop of PARSE as a relation (R154) -/

/-- `k` is the least index with `B[k] = SYNC`. -/
def FirstSync (b : List Byte) (k : Nat) : Prop :=
  k < b.length ∧ at' b k = 0x55 ∧ ∀ j < k, at' b j ≠ 0x55

/-- `Parses n b out left`: the loop of R154, started on working copy `b`, makes `n` passes that do not exit, returns
the packets `out` and leaves `left`. One constructor per exit and per continuing step, named by R154's letters. -/
inductive Parses : Nat → List Byte → List (List Byte) → List Byte → Prop where
  | guard {b} (h : b.length < 6) : Parses 0 b [] b
  | stepA {b} (h : 6 ≤ b.length) (none : ∀ k < b.length, at' b k ≠ 0x55) : Parses 0 b [] []
  | stepC {b k} (h : 6 ≤ b.length) (f : FirstSync b k) (short : (b.drop k).length < 6) : Parses 0 b [] (b.drop k)
  | stepD {b k n out left} (h : 6 ≤ b.length) (f : FirstSync b k) (long : 6 ≤ (b.drop k).length)
      (bad : ¬HeaderOk (b.drop k)) (more : Parses n ((b.drop k).drop 1) out left) : Parses (n + 1) b out left
  | stepE {b k} (h : 6 ≤ b.length) (f : FirstSync b k) (long : 6 ≤ (b.drop k).length)
      (ok : HeaderOk (b.drop k)) (wait : (b.drop k).length < totalSize (b.drop k)) : Parses 0 b [] (b.drop k)
  | stepF {b k n out left} (h : 6 ≤ b.length) (f : FirstSync b k) (long : 6 ≤ (b.drop k).length)
      (ok : HeaderOk (b.drop k)) (whole : totalSize (b.drop k) ≤ (b.drop k).length)
      (bad : ¬BodyOk (b.drop k)) (more : Parses n ((b.drop k).drop 1) out left) : Parses (n + 1) b out left
  | stepG {b k n out left} (h : 6 ≤ b.length) (f : FirstSync b k) (long : 6 ≤ (b.drop k).length)
      (ok : HeaderOk (b.drop k)) (whole : totalSize (b.drop k) ≤ (b.drop k).length) (good : BodyOk (b.drop k))
      (more : Parses n ((b.drop k).drop (totalSize (b.drop k))) out left) :
      Parses (n + 1) b ((b.drop k).take (totalSize (b.drop k)) :: out) left

/-- `got` is what a PARSE that framed `out` delivers under a result capacity `cap` (R9): all of `out` where it fits, and
otherwise some of it, in order, no more than fit. That the capacity counts packets is the model's choice
(notes/assumptions/4.md). -/
def Delivered (cap : Option Nat) (out got : List (List Byte)) : Prop :=
  ((∀ c, cap = some c → out.length ≤ c) → got = out) ∧
  (∀ c, cap = some c → c < out.length → got.length ≤ c ∧ got.Sublist out)

/-- `b` is a gap, then the first packet whole, then a gap, then the next, and so on, and ends with `left`. -/
def Contiguous : List (List Byte) → List Byte → List Byte → Prop
  | [], b, left => ∃ gap, b = gap ++ left
  | p :: ps, b, left => ∃ gap rest, b = gap ++ p ++ rest ∧ Contiguous ps rest left

/-- A run that feeds chunks, each with ADDDATA and then PARSE (FEED of R91), from `s` to `t`; `out` is what the PARSEs
returned, in order. -/
inductive Fed : State → List (List Byte) → List (List Byte) → State → Prop where
  | done (s) : Fed s [] [] s
  | chunk {s a b t d ds ps out} (add : exec (.adddata d) s = .next a) (parse : exec .parse a = .next b)
      (got : b.answer = some (.response (.packets ps))) (more : Fed b ds out t) : Fed s (d :: ds) (ps ++ out) t

/-! ### The telegram and the events (R66 to R75, R181 to R201) -/

/-- A RADIO packet with room for RORG, sender id and status (R66, R181). -/
def HasTelegram (s : List Byte) : Prop := at' s 4 = 0x01 ∧ 6 ≤ BE16 s 1

/-- `t` is the telegram of packet `s`, field by field (R66 to R69, R181). -/
def IsTelegramOf (s : List Byte) (t : Telegram) : Prop :=
  t.rorg.toNat = at' (dataOf s) 0 ∧
  t.payload = slice (dataOf s) 1 (BE16 s 1 - 5) ∧
  t.senderId.toNat = BE32 (dataOf s) (BE16 s 1 - 5) ∧
  t.status.toNat = at' (dataOf s) (BE16 s 1 - 1) ∧
  (7 ≤ at' s 3 →
    t.subTelNum.map BitVec.toNat = some (at' (optOf s) 0) ∧
    t.destinationId.map BitVec.toNat = some (BE32 (optOf s) 1) ∧
    t.dBm = -(at' (optOf s) 5 : Int) ∧
    t.securityLevel.map BitVec.toNat = some (at' (optOf s) 6)) ∧
  (at' s 3 < 7 → t.subTelNum = none ∧ t.destinationId = none ∧ t.dBm = -100 ∧ t.securityLevel = none)

/-- `detectProfile` of R188, the nibble as an integer. -/
def profileOf (t : Telegram) : Option Profile :=
  if t.rorg.toNat = 0xF6 then some .twoRocker
  else if t.rorg.toNat = 0xD2 ∧ 1 ≤ t.payload.length ∧ 1 ≤ at' t.payload 0 / 16 ∧ at' t.payload 0 / 16 ≤ 4 then
    some .relayDimmer
  else none

/-- The profile DECODE uses for a selector (R193). -/
def chosenProfile (selector : Byte) (t : Telegram) : Option Profile :=
  if selector.toNat = 0 then profileOf t
  else if selector.toNat = 1 then some .twoRocker
  else some .relayDimmer

/-- Rocker position of a 2-bit code (R72). -/
def rockerPosition (code : Nat) : Rocker :=
  if code = 1 then .up else if code = 2 then .down else .rest

/-- Dim time in seconds (R75). -/
def seconds (raw : Nat) : Nat := if raw = 0 then 0 else if raw ≤ 127 then raw else (raw - 127) * 60

/-- The channel of a relay event (R197). -/
def channelOf (payload : List Byte) : Nat :=
  if 2 ≤ payload.length then at' payload 1 % 32 else at' payload 0 % 16

/-- DECODE of `d` under `selector` answers a relay event of kind `kind` whose fields are as given; sender id and signal
strength are the telegram's and the channel is R197's. -/
def DecodesRelay (s : State) (selector : Byte) (d : List Byte) (t : Telegram) (kind : CommandKind)
    (on : Bool) (level : Nat) (dimValue dimTime : Option Nat) : Prop :=
  ∃ ev : RelayEvent,
    Answers (exec (.decode selector d) s) s (.event (some (.relayDimmer ev))) ∧
    ev.command = kind ∧ ev.channel.toNat = channelOf t.payload ∧ ev.outputOn = on ∧ ev.outputLevel.toNat = level ∧
    ev.dimValue.map BitVec.toNat = dimValue ∧ ev.dimTime.map BitVec.toNat = dimTime ∧
    ev.senderId = t.senderId ∧ ev.dBm = t.dBm

/-- The premises of the relay rules: `d` is an accepted packet with telegram `t`, a payload whose command nibble is
`nibble`, and the profile DECODE uses under the selector is relayDimmer. -/
def RelayInput (selector : Byte) (d : List Byte) (t : Telegram) (nibble : Nat) : Prop :=
  selector.toNat ≤ 2 ∧ IsPacket d ∧ HasTelegram d ∧ IsTelegramOf d t ∧ 1 ≤ t.payload.length ∧
    at' t.payload 0 / 16 = nibble ∧ chosenProfile selector t = some .relayDimmer

/-! ### The host's session (R246 to R252) -/

/-- What a session keeps: a connected one has no failure behind it, the timer is pending exactly while reconnecting,
and the counter of a reconnecting one is 1 to 5. -/
def SessionSound (h : Session) : Prop :=
  (h.phase = .connected → h.attempts = 0) ∧ (h.timer.isSome = true ↔ h.phase = .reconnecting) ∧
  (h.phase = .reconnecting ∨ h.phase = .connecting false → 1 ≤ h.attempts ∧ h.attempts ≤ 5)

/-- What the host emits for one packet (R247, R248): for a radio packet its telegram, followed by the event DECODE auto
answers if it answers one, and nothing if it has no telegram; an event or response packet whole; nothing for another. -/
def EmitsFor (p : List Byte) (evs : List HostEvent) : Prop :=
  (at' p 4 = 1 → HasTelegram p → ∃ t e, IsTelegramOf p t ∧ (∀ s, Answers (exec (.decode 0 p) s) s (.event e)) ∧
    evs = .radioTelegram t :: (e.map HostEvent.profileEvent).toList) ∧
  (at' p 4 = 1 → ¬HasTelegram p → evs = []) ∧
  (at' p 4 = 2 ∨ at' p 4 = 4 → evs = [.packet p]) ∧
  (at' p 4 = 0 ∨ at' p 4 = 3 ∨ 4 < at' p 4 → evs = [])

end Sys2Proof.Claims

open Sys2Proof.Claims

/-! ### The command port -/

/-- Every well-formed command is read back from its own encoding, with every operand at every value, whatever stands
behind it on the port (R80 to R84). -/
def Obligations.EncodedCommandDecodesBack : Prop :=
  ∀ (i : Instr) (rest : List Byte), i.WellFormed → decode (encode i ++ rest) = .command i rest

/-- The decoder reads a command from no bytes but its encoding, and only well-formed commands. -/
def Obligations.DecodedBytesAreTheEncoding : Prop :=
  ∀ (port rest : List Byte) (i : Instr), decode port = .command i rest → port = encode i ++ rest ∧ i.WellFormed

/-- A step performs the command its port decodes to, with the command's bytes taken off the port (R14, R49). -/
def Obligations.StepRunsDecodedCommand : Prop :=
  ∀ (s : State) (i : Instr) (rest : List Byte), decode s.port = .command i rest →
    step s = exec i { s with port := rest }

/-- One command of each family, its bytes as 95_test_vectors.md writes them (programs P1 to P4), decodes to it. -/
def Obligations.WrittenWordsDecode : Prop :=
  decode [0x01, 0x00, 0x00, 0x00, 0x00, 0x00, 0x00, 0x04, 0x55, 0x00, 0x07, 0x07] =
    .command (.adddata [0x55, 0x00, 0x07, 0x07]) [] ∧
  decode [0x02, 0x00, 0x00, 0x00] = .command .parse [] ∧
  decode [0x11, 0x80, 0x00, 0x00, 0x00, 0x00, 0x00, 0x04, 0x00, 0x0A, 0x00, 0x01] =
    .command (.crcvfy 0x80 [0x00, 0x0A, 0x00, 0x01]) [] ∧
  decode [0x21, 0x30, 0x05, 0x06] = .command (.getbits 0x30 0x05 0x06) [] ∧
  decode [0x33, 0x00, 0x00, 0x00, 0x00, 0x00, 0x00, 0x08, 0x55, 0x00, 0x01, 0x00, 0x02, 0x65, 0x00, 0x00] =
    .command (.pktclass [0x55, 0x00, 0x01, 0x00, 0x02, 0x65, 0x00, 0x00]) []

/-- R85: a reserved opcode is refused, changes no other state, and consumes exactly its four bytes; every other opcode
value starts a command of the map. -/
def Obligations.ReservedOpcodeIsRefused : Prop :=
  (∀ (s : State) (op a p q : Byte) (rest : List Byte), ReservedOpcode op → s.port = op :: a :: p :: q :: rest →
    Refuses (step s) { s with port := rest } (.illegalOpcode (wordOf op a p q))) ∧
  (∀ op : Byte, ¬ReservedOpcode op → ∃ i : Instr, (encode i).head? = some op)

/-- R87: the length of a command is told by its opcode alone; a step consumes the four bytes of a command without stream,
and `8 + LW` bytes of a stream command. That this holds of a stream command refused `ReservedField` too is the model's
reading (notes/assumptions/7.md). -/
def Obligations.OpcodeTellsTheLength : Prop :=
  ∀ (s : State) (op a p q : Byte) (d rest : List Byte), HoldsCommand s.port op a p q d rest →
    (∃ t, step s = .next t ∧ t.port = rest) ∧
    (¬StreamOpcode op → s.port.length = 4 + rest.length) ∧
    (StreamOpcode op → s.port.length = 8 + d.length + rest.length)

/-- R234: the checks are made in the order IllegalOpcode, ReservedField, OperandRange, NotAPacket, BufferOverflow, and
the first that applies is the outcome; each refusal leaves every field but the port, the mark and the answer (R236),
the fault likewise with its own mark (R237), and a command no check stops is answered with a response and sets no
mark. Each outcome has the cause code of R233. That a stream command refused `ReservedField` leaves the port behind its
stream is the model's reading (notes/assumptions/7.md). -/
def Obligations.ChecksAreMadeInOrder : Prop :=
  (∀ (cw lw : Word32) (n : Nat) (r : Response),
    (Answer.refused (.illegalOpcode cw)).cause = some 0x01 ∧ (Answer.refused (.reservedField cw)).cause = some 0x02 ∧
    (Answer.refused (.operandRange cw)).cause = some 0x03 ∧ (Answer.refused (.notAPacket cw lw)).cause = some 0x04 ∧
    (Answer.faulted (.bufferOverflow cw lw n)).cause = some 0x80 ∧ (Answer.response r).cause = none) ∧
  ∀ (s : State) (op a p q : Byte) (d rest : List Byte), HoldsCommand s.port op a p q d rest →
    let s' := { s with port := rest }
    let cw := wordOf op a p q
    let lw : Word32 := BitVec.ofNat 32 d.length
    let range := BreaksRange op a p q
    let notPacket := PacketOpcode op ∧ ¬IsPacket d
    let tooLong := op = 0x01 ∧ ∃ c, s.config.bufCap = some c ∧ c < s.buf.length + d.length
    (ReservedOpcode op → Refuses (step s) s' (.illegalOpcode cw)) ∧
    (¬ReservedOpcode op → BreaksReserved op a p q → Refuses (step s) s' (.reservedField cw)) ∧
    (¬ReservedOpcode op → ¬BreaksReserved op a p q → range → Refuses (step s) s' (.operandRange cw)) ∧
    (¬ReservedOpcode op → ¬BreaksReserved op a p q → ¬range → notPacket →
      Refuses (step s) s' (.notAPacket cw lw)) ∧
    (¬ReservedOpcode op → ¬BreaksReserved op a p q → ¬range → ¬notPacket → tooLong →
      step s = .next { s' with faulted := true, answer := some (.faulted (.bufferOverflow cw lw s.buf.length)) }) ∧
    (¬ReservedOpcode op → ¬BreaksReserved op a p q → ¬range → ¬notPacket → ¬tooLong →
      ∃ t r, step s = .next t ∧ t.answer = some (.response r) ∧ t.faulted = s.faulted ∧ t.refused = s.refused)

/-- No input stops the block: every command, and every step in every state, answers a next state, so that after a
refusal or a fault the next command is accepted (R231, R239, R240). That a refusal and a fault are next states is the
model's reading of R236, R237 and R240 (notes/assumptions/5.md); that a port with less than one command leaves a next
state is the model's choice (notes/assumptions/2.md). -/
def Obligations.EveryStepAnswersANextState : Prop :=
  (∀ (i : Instr) (s : State), ∃ t, exec i s = .next t) ∧ (∀ s : State, ∃ t, step s = .next t)

/-- The model's choice (notes/assumptions/2.md): while the port holds less than one whole command, the block waits and
nothing changes: fewer than four bytes, or a stream command whose length word or stream has not all arrived. -/
def Obligations.IncompleteCommandWaits : Prop :=
  (∀ s : State, s.port.length < 4 → step s = .next s) ∧
  (∀ (s : State) (op a p q : Byte) (t : List Byte), StreamOpcode op → s.port = op :: a :: p :: q :: t →
    t.length < 4 ∨ t.length < 4 + BE32 t 0 → step s = .next s)

/-- Commands run one at a time in issue order: the steps of a port that holds the encodings of `cmds` are the commands
performed one after another, each on the state its predecessor left (R49). -/
def Obligations.CommandsRunInIssueOrder : Prop :=
  ∀ (cmds : List Instr) (s : State) (rest : List Byte), (∀ i ∈ cmds, i.WellFormed) →
    s.port = encodeAll cmds ++ rest →
    Host.Core.run Sys2Proof.core cmds.length s =
      cmds.foldl
        (fun o i =>
          match o with
          | .next t => exec i t
          | .fault r => .fault r
          | .refused r => .refused r)
        (Host.Outcome.next { s with port := rest } : Out)

/-- Bytes the host offers while a whole command stands on the port are held behind it, neither dropped nor started:
the step does what it would have done without them (R265, D23). -/
def Obligations.LaterBytesAreHeld : Prop :=
  ∀ (s t : State) (more : List Byte), decode s.port ≠ .incomplete → step s = .next t →
    step (s.offer more) = .next (t.offer more)

/-- R91: `FEED [d]` is the two commands ADDDATA and PARSE; two steps perform them, one on the state the other left, and
the last answer is PARSE's response. -/
def Obligations.FeedIsAdddataThenParse : Prop :=
  ∀ (s : State) (d rest : List Byte), d.length < 2 ^ 32 →
    s.port = encode (.adddata d) ++ encode .parse ++ rest →
    feed d = [.adddata d, .parse] ∧
    ∃ t u ps, step s = .next t ∧ exec (.adddata d) { s with port := encode .parse ++ rest } = .next t ∧
      step t = .next u ∧ exec .parse { t with port := rest } = .next u ∧
      u.port = rest ∧ u.answer = some (.response (.packets ps))

/-! ### The CRC8 engine -/

/-- R102: CRC8's encoding, and its response: the checksum of R100, for every stream, one byte on the port (R88); nothing
else changes. The encoding clause rests on notes/assumptions/7.md for a refused command's stream. -/
def Obligations.Crc8AnswersTheChecksum : Prop :=
  FormatS 0x10 .crc8 ∧ (∀ v : Byte, (Response.u8 v).bytes = some [v]) ∧
  ∀ (d : List Byte) (s : State), ∃ v : Byte, v.toNat = crcSum d ∧ Answers (exec (.crc8 d) s) s (.u8 v)

/-- R104: CRCVFY's encoding, and its response: whether the checksum equals the expected byte, 1 or 0 on the port (R88);
nothing else changes. The encoding clause rests on notes/assumptions/7.md for a refused command's stream. -/
def Obligations.CrcvfyComparesTheChecksum : Prop :=
  FormatSA 0x11 .crcvfy ∧
  (Response.bool true).bytes = some [1] ∧ (Response.bool false).bytes = some [0] ∧
  ∀ (expected : Byte) (d : List Byte) (s : State),
    (expected.toNat = crcSum d → Answers (exec (.crcvfy expected d) s) s (.bool true)) ∧
    (expected.toNat ≠ crcSum d → Answers (exec (.crcvfy expected d) s) s (.bool false))

/-- R101 laws 1, 2 and 4: fold, leading zeros, self-check. -/
def Obligations.CrcFoldsAndChecksItself : Prop :=
  ∀ (s : List Byte) (b : Byte),
    crc8 (s ++ [b]) = crcStep (crc8 s) b ∧ crc8 (0 :: s) = crc8 s ∧ crc8 (s ++ [crc8 s]) = 0

/-- R101 law 3: on sequences of one length the checksum is linear in bytewise XOR. -/
def Obligations.CrcIsLinear : Prop :=
  ∀ s t : List Byte, s.length = t.length → crc8 (List.zipWith (· ^^^ ·) s t) = crc8 s ^^^ crc8 t

/-- R101 law 5: changing one bit of a sequence always changes its checksum. -/
def Obligations.CrcDetectsSingleBitErrors : Prop :=
  ∀ (before after : List Byte) (b : Byte) (k : Nat), k < 8 →
    crc8 (before ++ (b ^^^ BitVec.ofNat 8 (2 ^ k)) :: after) ≠ crc8 (before ++ b :: after)

/-! ### The bit-field extractor -/

/-- R120: GETBIT's encoding, its result, and its refusal outside positions 0 to 7. -/
def Obligations.GetbitReadsOneBit : Prop :=
  FormatBP 0x20 .getbit ∧
  ∀ (byte pos : Byte) (s : State),
    (pos.toNat ≤ 7 → ∃ v : Byte, v.toNat = byte.toNat / 2 ^ pos.toNat % 2 ∧
      Answers (exec (.getbit byte pos) s) s (.u8 v)) ∧
    (7 < pos.toNat → Refuses (exec (.getbit byte pos) s) s (.operandRange (wordOf 0x20 byte pos 0)))

/-- R122: GETBITS's encoding, its result, and its refusal of a range that is empty or reaches past bit 7. -/
def Obligations.GetbitsReadsARange : Prop :=
  FormatBPQ 0x21 .getbits ∧
  ∀ (byte lo hi : Byte) (s : State),
    (hi.toNat ≤ 7 → lo.toNat ≤ hi.toNat → ∃ v : Byte,
      v.toNat = byte.toNat / 2 ^ lo.toNat % 2 ^ (hi.toNat - lo.toNat + 1) ∧
      Answers (exec (.getbits byte lo hi) s) s (.u8 v)) ∧
    (7 < hi.toNat ∨ hi.toNat < lo.toNat →
      Refuses (exec (.getbits byte lo hi) s) s (.operandRange (wordOf 0x21 byte lo hi)))

/-- R124: HINIB, one byte on the port (R88). -/
def Obligations.HinibReadsTheUpperNibble : Prop :=
  FormatB 0x22 .hinib ∧ (∀ v : Byte, (Response.u8 v).bytes = some [v]) ∧
  ∀ (byte : Byte) (s : State), ∃ v : Byte, v.toNat = byte.toNat / 16 ∧ Answers (exec (.hinib byte) s) s (.u8 v)

/-- R126: LONIB. -/
def Obligations.LonibReadsTheLowerNibble : Prop :=
  FormatB 0x23 .lonib ∧
  ∀ (byte : Byte) (s : State), ∃ v : Byte, v.toNat = byte.toNat % 16 ∧ Answers (exec (.lonib byte) s) s (.u8 v)

/-- R128: MSB, 1 or 0 on the port (R88). -/
def Obligations.MsbTestsBitSeven : Prop :=
  FormatB 0x24 .msb ∧
  (Response.bool true).bytes = some [1] ∧ (Response.bool false).bytes = some [0] ∧
  ∀ (byte : Byte) (s : State), Answers (exec (.msb byte) s) s (.bool (decide (128 ≤ byte.toNat)))

/-- R130: ROCKER's table with the codes of R89, code 3 as code 0, and its refusal above 3. The position the spec writes
`none` is `rest`. -/
def Obligations.RockerFollowsItsTable : Prop :=
  FormatB 0x25 .rocker ∧
  (Response.rocker .rest).bytes = some [0] ∧ (Response.rocker .up).bytes = some [1] ∧
  (Response.rocker .down).bytes = some [2] ∧
  ∀ (code : Byte) (s : State),
    (code.toNat = 0 ∨ code.toNat = 3 → Answers (exec (.rocker code) s) s (.rocker .rest)) ∧
    (code.toNat = 1 → Answers (exec (.rocker code) s) s (.rocker .up)) ∧
    (code.toNat = 2 → Answers (exec (.rocker code) s) s (.rocker .down)) ∧
    (3 < code.toNat → Refuses (exec (.rocker code) s) s (.operandRange (wordOf 0x25 code 0 0)))

/-- R132: ACTION reads bit 5 and nothing else; its codes are those of R89. -/
def Obligations.ActionReadsBitFive : Prop :=
  FormatB 0x26 .action ∧
  (Response.action .released).bytes = some [0] ∧ (Response.action .pressed).bytes = some [1] ∧
  ∀ (status : Byte) (s : State),
    (status.toNat / 32 % 2 = 1 → Answers (exec (.action status) s) s (.action .pressed)) ∧
    (status.toNat / 32 % 2 = 0 → Answers (exec (.action status) s) s (.action .released))

/-- R134: CMDKIND's table with the codes of R89; every byte is accepted. -/
def Obligations.CmdkindFollowsItsTable : Prop :=
  FormatB 0x27 .cmdkind ∧
  (Response.commandKind none).bytes = some [0] ∧ (Response.commandKind (some .switching)).bytes = some [1] ∧
  (Response.commandKind (some .dimming)).bytes = some [2] ∧
  (Response.commandKind (some .statusRequest)).bytes = some [3] ∧
  (Response.commandKind (some .statusResponse)).bytes = some [4] ∧
  ∀ (nibble : Byte) (s : State),
    (nibble.toNat = 1 → Answers (exec (.cmdkind nibble) s) s (.commandKind (some .switching))) ∧
    (nibble.toNat = 2 → Answers (exec (.cmdkind nibble) s) s (.commandKind (some .dimming))) ∧
    (nibble.toNat = 3 → Answers (exec (.cmdkind nibble) s) s (.commandKind (some .statusRequest))) ∧
    (nibble.toNat = 4 → Answers (exec (.cmdkind nibble) s) s (.commandKind (some .statusResponse))) ∧
    (nibble.toNat = 0 ∨ 4 < nibble.toNat → Answers (exec (.cmdkind nibble) s) s (.commandKind none))

/-- R136: DIMTIME's three cases, exact in u16, most significant byte first on the port (R88). -/
def Obligations.DimtimeConvertsToSeconds : Prop :=
  FormatB 0x28 .dimtime ∧
  (∀ v : Word16, ∃ hi lo : Byte, (Response.seconds v).bytes = some [hi, lo] ∧ v.toNat = hi.toNat * 256 + lo.toNat) ∧
  ∀ (raw : Byte) (s : State), ∃ v : Word16, Answers (exec (.dimtime raw) s) s (.seconds v) ∧
    (raw.toNat = 0 → v.toNat = 0) ∧
    (1 ≤ raw.toNat → raw.toNat ≤ 127 → v.toNat = raw.toNat) ∧
    (128 ≤ raw.toNat → v.toNat = (raw.toNat - 127) * 60)

/-! ### The framer -/

/-- R150 and R152: ADDDATA appends, and answers an acknowledge, unless a finite capacity would be exceeded; then it
faults `BufferOverflow` and leaves the buffer unchanged. An acknowledge has no bytes (R88). The encoding clause rests on
notes/assumptions/7.md for a refused command's stream, and the length word recorded for a stream of 2^32 bytes or more,
which no port carries, on notes/assumptions/12.md. -/
def Obligations.AdddataAppendsOrOverflows : Prop :=
  FormatS 0x01 .adddata ∧ Response.ack.bytes = some [] ∧
  ∀ (d : List Byte) (s : State),
    ((∀ c, s.config.bufCap = some c → s.buf.length + d.length ≤ c) →
      AnswersLeaving (exec (.adddata d) s) s (s.buf ++ d) .ack) ∧
    (∀ c, s.config.bufCap = some c → c < s.buf.length + d.length →
      exec (.adddata d) s = .next { s with
        faulted := true
        answer := some (.faulted (.bufferOverflow (wordOf 0x01 0 0 0) (BitVec.ofNat 32 d.length) s.buf.length)) })

/-- R154: PARSE does what the loop of R154 does, step by step, from every buffer, and nothing else changes. The result
capacity is the one R9 decides, unbounded, of which R154 speaks; ParsePassesAreBounded covers every capacity. -/
def Obligations.ParseRunsTheLoop : Prop :=
  FormatN 0x02 .parse ∧
  ∀ s : State, s.config.resultCap = none →
    (∃ n out left, Parses n s.buf out left ∧ AnswersLeaving (exec .parse s) s left (.packets out)) ∧
    (∀ n out left, Parses n s.buf out left → AnswersLeaving (exec .parse s) s left (.packets out))

/-- R163: CLRBUF empties the buffer and clears no mark. -/
def Obligations.ClrbufEmptiesTheBuffer : Prop :=
  FormatN 0x03 .clrbuf ∧ ∀ s : State, AnswersLeaving (exec .clrbuf s) s [] .ack

/-- R165: BUFSIZE answers the buffer's length and changes nothing; right after a PARSE that length is at most 65796. A
length below 2^32 is four bytes on the port, most significant first (R88). -/
def Obligations.BufsizeAnswersTheLength : Prop :=
  FormatN 0x04 .bufsize ∧
  (∀ n : Nat, n < 2 ^ 32 → ∃ b0 b1 b2 b3 : Byte, (Response.size n).bytes = some [b0, b1, b2, b3] ∧
    n = b0.toNat * 2 ^ 24 + b1.toNat * 2 ^ 16 + b2.toNat * 2 ^ 8 + b3.toNat) ∧
  (∀ s : State, Answers (exec .bufsize s) s (.size s.buf.length)) ∧
  (∀ s t u : State, exec .parse s = .next t → exec .bufsize t = .next u →
    ∃ n, u.answer = some (.response (.size n)) ∧ n ≤ 65796)

/-- R160: after a PARSE the buffer is empty, or 1 to 5 bytes of any contents, or starts with a valid header whose packet
has not fully arrived; never more than 65796 bytes. -/
def Obligations.BufferAfterParse : Prop :=
  ∀ s : State, ∃ t, exec .parse s = .next t ∧ t.buf.length ≤ 65796 ∧
    (t.buf = [] ∨ (0 < t.buf.length ∧ t.buf.length < 6) ∨
      (6 ≤ t.buf.length ∧ HeaderOk t.buf ∧ t.buf.length < totalSize t.buf))

/-- R47: a PARSE right after a PARSE returns no packets and leaves the buffer as it is. -/
def Obligations.ParseTwiceIsParseOnce : Prop :=
  ∀ s t : State, exec .parse s = .next t → AnswersLeaving (exec .parse t) t t.buf (.packets [])

/-- R158: every packet PARSE returns satisfies the acceptance predicate. -/
def Obligations.ParseReturnsOnlyPackets : Prop :=
  ∀ s t : State, ∀ ps : List (List Byte), exec .parse s = .next t →
    t.answer = some (.response (.packets ps)) → ∀ p ∈ ps, IsPacket p

/-- R159, R54: every packet PARSE returns stood in the buffer as one unbroken run of bytes, the runs in the order returned
and apart from each other, and the bytes it keeps stood behind them all; PARSE adds, changes and reorders no byte. -/
def Obligations.ParseKeepsStreamOrder : Prop :=
  ∀ s t : State, ∀ ps : List (List Byte), exec .parse s = .next t →
    t.answer = some (.response (.packets ps)) → Contiguous ps s.buf t.buf

/-- R161, R154: every pass of PARSE's loop that does not end it removes at least one byte, and at least seven where it
accepts a packet; so the bound on the passes never ends the loop, and PARSE, under every result capacity, delivers what
R154's loop gives after at most `|BUF|` such passes. That the capacity counts packets is the model's
choice, and what a result too small for the packets holds is a free value (notes/assumptions/4.md). -/
def Obligations.ParsePassesAreBounded : Prop :=
  (∀ b left : List Byte, parsePass b = .resync left → left.length + 1 ≤ b.length) ∧
  (∀ b p left : List Byte, parsePass b = .packet p left → left.length + 7 ≤ b.length) ∧
  (∀ (b : List Byte) (fuel : Nat), b.length ≤ fuel → parseLoop fuel b = parseBuffer b) ∧
  (∀ s : State, ∃ n out left got, Parses n s.buf out left ∧ n ≤ s.buf.length ∧
    Delivered s.config.resultCap out got ∧ AnswersLeaving (exec .parse s) s left (.packets got))

/-- R157, R159: an accepted packet that a PARSE finds first, behind any bytes that are no sync byte, is returned whole
and first, whatever sync bytes it holds inside; the rest of the buffer is parsed as it would be alone. The result
capacity is the one R9 decides, unbounded. -/
def Obligations.FirstPacketIsReturnedWhole : Prop :=
  ∀ (s : State) (noise p r : List Byte), s.config.resultCap = none → (∀ x ∈ noise, x ≠ 0x55) → IsPacket p →
    ∃ out left, AnswersLeaving (exec .parse { s with buf := r }) s left (.packets out) ∧
      AnswersLeaving (exec .parse { s with buf := noise ++ p ++ r }) s left (.packets (p :: out))

/-- R166: feeding a stream in chunks, with a PARSE after each, returns the packets that feeding it whole returns,
however it is cut. The instance is the unbounded one of R9, in which no ADDDATA faults and every packet is returned. -/
def Obligations.SplitFeedingReturnsTheSamePackets : Prop :=
  ∀ (s : State) (chunks : List (List Byte)), s.config = Config.unbounded → chunks ≠ [] →
    ∃ out t u, Fed s chunks out t ∧ Fed s [chunks.flatten] out u

/-- R167: feeding the front of a packet into an empty buffer yields no packet; feeding the remaining bytes then yields
exactly that packet and leaves the buffer empty. The instance is the one R9 decides, with unbounded capacities. -/
def Obligations.PartialFrameYieldsOnePacketLater : Prop :=
  ∀ (s : State) (front back : List Byte), s.config = Config.unbounded → s.buf = [] → IsPacket (front ++ back) →
    back ≠ [] → ∃ t u, Fed s [front] [] t ∧ t.buf = front ∧ Fed t [back] [front ++ back] u ∧ u.buf = []

/-- R169: while a valid header at the front of the buffer declares more bytes than are buffered, PARSE returns nothing
and keeps everything, valid packets behind it included. -/
def Obligations.FalseHeaderStallsParse : Prop :=
  ∀ s : State, 6 ≤ s.buf.length → HeaderOk s.buf → s.buf.length < totalSize s.buf →
    AnswersLeaving (exec .parse s) s s.buf (.packets [])

/-- R168: the two byte streams X1 and X2 of 95_test_vectors.md, clean and with one flipped byte, in the instance R9
decides. Each clean stream gives two packets. Flipped, X1 gives no packet and PARSE keeps 15 bytes, the later valid frame
among them; flipped, X2 gives three packets. -/
def Obligations.ResyncCounterexamples : Prop :=
  ∀ s : State, s.config = Config.unbounded →
    AnswersLeaving (exec .parse { s with buf :=
        [0x55, 0x00, 0x07, 0x00, 0x0A, 0x20, 0xAA, 0x55, 0x00, 0xFF, 0x00, 0x01, 0x2C, 0x1D,
          0x55, 0x00, 0x01, 0x00, 0x02, 0x65, 0x00, 0x00] }) s []
      (.packets [[0x55, 0x00, 0x07, 0x00, 0x0A, 0x20, 0xAA, 0x55, 0x00, 0xFF, 0x00, 0x01, 0x2C, 0x1D],
        [0x55, 0x00, 0x01, 0x00, 0x02, 0x65, 0x00, 0x00]]) ∧
    AnswersLeaving (exec .parse { s with buf :=
        [0x55, 0x00, 0x07, 0x00, 0x0A, 0x20, 0xAB, 0x55, 0x00, 0xFF, 0x00, 0x01, 0x2C, 0x1D,
          0x55, 0x00, 0x01, 0x00, 0x02, 0x65, 0x00, 0x00] }) s
      [0x55, 0x00, 0xFF, 0x00, 0x01, 0x2C, 0x1D, 0x55, 0x00, 0x01, 0x00, 0x02, 0x65, 0x00, 0x00] (.packets []) ∧
    AnswersLeaving (exec .parse { s with buf :=
        [0x55, 0x00, 0x11, 0x00, 0x0A, 0xFF, 0xAA, 0x55, 0x00, 0x01, 0x00, 0x02, 0x65, 0x00, 0x00,
          0x55, 0x00, 0x01, 0x00, 0x02, 0x65, 0x00, 0x00, 0xA0, 0x55, 0x00, 0x01, 0x00, 0x02, 0x65, 0x00, 0x00] }) s []
      (.packets [[0x55, 0x00, 0x11, 0x00, 0x0A, 0xFF, 0xAA, 0x55, 0x00, 0x01, 0x00, 0x02, 0x65, 0x00, 0x00,
          0x55, 0x00, 0x01, 0x00, 0x02, 0x65, 0x00, 0x00, 0xA0],
        [0x55, 0x00, 0x01, 0x00, 0x02, 0x65, 0x00, 0x00]]) ∧
    AnswersLeaving (exec .parse { s with buf :=
        [0x55, 0x00, 0x11, 0x00, 0x0A, 0xFF, 0xAB, 0x55, 0x00, 0x01, 0x00, 0x02, 0x65, 0x00, 0x00,
          0x55, 0x00, 0x01, 0x00, 0x02, 0x65, 0x00, 0x00, 0xA0, 0x55, 0x00, 0x01, 0x00, 0x02, 0x65, 0x00, 0x00] }) s []
      (.packets [[0x55, 0x00, 0x01, 0x00, 0x02, 0x65, 0x00, 0x00], [0x55, 0x00, 0x01, 0x00, 0x02, 0x65, 0x00, 0x00],
        [0x55, 0x00, 0x01, 0x00, 0x02, 0x65, 0x00, 0x00]])

/-- R62, R88: packets are self-delimiting: the concatenation of accepted packets, as PARSE's response carries them behind
their count, is framed back into exactly those packets, under the unbounded result capacity R9 decides. That 2^32 packets
or more have no byte encoding is the model's choice (notes/assumptions/12.md). -/
def Obligations.PacketsAreSelfDelimiting : Prop :=
  ∀ (s : State) (ps : List (List Byte)), s.config.resultCap = none → (∀ p ∈ ps, IsPacket p) →
    (.packets ps : Response).bytes =
      (if ps.length < 2 ^ 32 then some (bytes32 (BitVec.ofNat 32 ps.length) ++ ps.flatten) else none) ∧
    AnswersLeaving (exec .parse { s with buf := ps.flatten }) s [] (.packets ps)

/-- R60 to R63: the accepted packets are exactly the byte sequences built from a packet type, a data region of at most
65535 bytes and an optional region of at most 255: sync, big-endian length, optional length, type, header CRC, data,
optional data, body CRC. -/
def Obligations.AcceptedPacketsAreTheBuiltOnes : Prop :=
  ∀ b : List Byte, accepted b = true ↔
    ∃ (hi lo ol ty hc bc : Byte) (data opt : List Byte),
      data.length = hi.toNat * 256 + lo.toNat ∧ opt.length = ol.toNat ∧
      hc.toNat = crcSum [hi, lo, ol, ty] ∧ bc.toNat = crcSum (data ++ opt) ∧
      b = [0x55, hi, lo, ol, ty, hc] ++ data ++ opt ++ [bc]

/-! ### The decoder -/

/-- R185: TELEGRAM's encoding, its refusal of anything but an accepted packet, and its response: the telegram of R181
where there is one, else none. The encoding clause rests on
notes/assumptions/7.md for a refused command's stream, and the length word recorded for a stream of 2^32 bytes or more,
which no port carries, on notes/assumptions/12.md. -/
def Obligations.TelegramViewsTheDataRegion : Prop :=
  FormatS 0x30 .telegram ∧
  ∀ (d : List Byte) (s : State),
    (¬IsPacket d → Refuses (exec (.telegram d) s) s (.notAPacket (wordOf 0x30 0 0 0) (BitVec.ofNat 32 d.length))) ∧
    (IsPacket d → HasTelegram d → ∃ t, IsTelegramOf d t ∧ Answers (exec (.telegram d) s) s (.telegram (some t))) ∧
    (IsPacket d → ¬HasTelegram d → Answers (exec (.telegram d) s) s (.telegram none))

/-- R190: DETECT's encoding, its refusal, and its response: the profile R188 gives the packet's telegram, with the
codes of R89. The encoding clause rests on
notes/assumptions/7.md for a refused command's stream, and the length word recorded for a stream of 2^32 bytes or more,
which no port carries, on notes/assumptions/12.md. -/
def Obligations.DetectFollowsTheRorg : Prop :=
  FormatS 0x31 .detect ∧
  (Response.profile none).bytes = some [0] ∧ (Response.profile (some .twoRocker)).bytes = some [1] ∧
  (Response.profile (some .relayDimmer)).bytes = some [2] ∧
  ∀ (d : List Byte) (s : State),
    (¬IsPacket d → Refuses (exec (.detect d) s) s (.notAPacket (wordOf 0x31 0 0 0) (BitVec.ofNat 32 d.length))) ∧
    (∀ t, IsPacket d → HasTelegram d → IsTelegramOf d t →
      Answers (exec (.detect d) s) s (.profile (profileOf t))) ∧
    (IsPacket d → ¬HasTelegram d → Answers (exec (.detect d) s) s (.profile none))

/-- R193: DECODE's encoding, its refusals, and when it answers an event: the profile is the selector's, or the detected
one for `auto`; none without a telegram, without a profile or with an empty payload; a rocker event for twoRocker; for
relayDimmer an event exactly when the command nibble is 1 to 4. The encoding clause rests on
notes/assumptions/7.md for a refused command's stream, and the length word recorded for a stream of 2^32 bytes or more,
which no port carries, on notes/assumptions/12.md. -/
def Obligations.DecodeChoosesTheProfile : Prop :=
  FormatSA 0x32 .decode ∧
  ∀ (selector : Byte) (d : List Byte) (s : State),
    (2 < selector.toNat →
      Refuses (exec (.decode selector d) s) s (.operandRange (wordOf 0x32 selector 0 0))) ∧
    (selector.toNat ≤ 2 → ¬IsPacket d →
      Refuses (exec (.decode selector d) s) s
        (.notAPacket (wordOf 0x32 selector 0 0) (BitVec.ofNat 32 d.length))) ∧
    (selector.toNat ≤ 2 → IsPacket d → ¬HasTelegram d →
      Answers (exec (.decode selector d) s) s (.event none)) ∧
    (∀ t, selector.toNat ≤ 2 → IsPacket d → HasTelegram d → IsTelegramOf d t →
      (chosenProfile selector t = none ∨ t.payload = [] → Answers (exec (.decode selector d) s) s (.event none)) ∧
      (chosenProfile selector t = some .twoRocker → t.payload ≠ [] →
        ∃ e, Answers (exec (.decode selector d) s) s (.event (some (.twoRocker e)))) ∧
      (chosenProfile selector t = some .relayDimmer → t.payload ≠ [] →
        1 ≤ at' t.payload 0 / 16 → at' t.payload 0 / 16 ≤ 4 →
        ∃ e, Answers (exec (.decode selector d) s) s (.event (some (.relayDimmer e)))) ∧
      (chosenProfile selector t = some .relayDimmer → t.payload ≠ [] →
        at' t.payload 0 / 16 = 0 ∨ 4 < at' t.payload 0 / 16 →
        Answers (exec (.decode selector d) s) s (.event none)))

/-- R195: the two-rocker event, field by field, from the first payload byte and the status byte. -/
def Obligations.RockerEventFields : Prop :=
  ∀ (selector : Byte) (d : List Byte) (t : Telegram) (s : State), selector.toNat ≤ 2 → IsPacket d → HasTelegram d →
    IsTelegramOf d t → chosenProfile selector t = some .twoRocker → t.payload ≠ [] →
    Answers (exec (.decode selector d) s) s (.event (some (.twoRocker
      { rockerA := rockerPosition (at' t.payload 0 / 32 % 4)
        rockerB := rockerPosition (at' t.payload 0 / 2 % 4)
        energyBow := decide (at' t.payload 0 / 16 % 2 = 1)
        secondAction := decide (at' t.payload 0 % 2 = 1)
        action := if t.status.toNat / 32 % 2 = 1 then .pressed else .released
        senderId := t.senderId
        dBm := t.dBm })))

/-- R198: a switching event. The on/off bit is bit 0 of the third payload byte if there is one, else of the second;
with one byte the output is off. The level is 100 when on and 0 when off; no dim field is given. -/
def Obligations.RelaySwitchingEvent : Prop :=
  ∀ (selector : Byte) (d : List Byte) (t : Telegram) (s : State), RelayInput selector d t 1 →
    let on := (3 ≤ t.payload.length ∧ at' t.payload 2 % 2 = 1) ∨ (t.payload.length = 2 ∧ at' t.payload 1 % 2 = 1)
    (on → DecodesRelay s selector d t .switching true 100 none none) ∧
    (¬on → DecodesRelay s selector d t .switching false 0 none none)

/-- R199: a dimming event. The level is the third byte whole, on when above 0, and given as dim value too; the fourth
byte gives the dim time; a shorter payload leaves level 0, off, and no dim field. -/
def Obligations.RelayDimmingEvent : Prop :=
  ∀ (selector : Byte) (d : List Byte) (t : Telegram) (s : State), RelayInput selector d t 2 →
    let level := at' t.payload 2
    (t.payload.length ≤ 2 → DecodesRelay s selector d t .dimming false 0 none none) ∧
    (t.payload.length = 3 →
      DecodesRelay s selector d t .dimming (decide (0 < level)) level (some level) none) ∧
    (4 ≤ t.payload.length →
      DecodesRelay s selector d t .dimming (decide (0 < level)) level (some level)
        (some (seconds (at' t.payload 3))))

/-- R200: a status request writes no field but the channel. -/
def Obligations.RelayStatusRequestEvent : Prop :=
  ∀ (selector : Byte) (d : List Byte) (t : Telegram) (s : State), RelayInput selector d t 3 →
    DecodesRelay s selector d t .statusRequest false 0 none none

/-- R201: a status response reads the level from the third byte, on when above 0, and gives no dim field. -/
def Obligations.RelayStatusResponseEvent : Prop :=
  ∀ (selector : Byte) (d : List Byte) (t : Telegram) (s : State), RelayInput selector d t 4 →
    let level := at' t.payload 2
    (t.payload.length ≤ 2 → DecodesRelay s selector d t .statusResponse false 0 none none) ∧
    (3 ≤ t.payload.length → DecodesRelay s selector d t .statusResponse (decide (0 < level)) level none none)

/-- R205: PKTCLASS's encoding, its refusal, and its response by packet type, with the codes of R89. The encoding clause rests on
notes/assumptions/7.md for a refused command's stream, and the length word recorded for a stream of 2^32 bytes or more,
which no port carries, on notes/assumptions/12.md. -/
def Obligations.PktclassReadsThePacketType : Prop :=
  FormatS 0x33 .pktclass ∧
  (Response.packetClass .other).bytes = some [0] ∧ (Response.packetClass .radio).bytes = some [1] ∧
  (Response.packetClass .response).bytes = some [2] ∧ (Response.packetClass .event).bytes = some [4] ∧
  ∀ (d : List Byte) (s : State),
    (¬IsPacket d → Refuses (exec (.pktclass d) s) s (.notAPacket (wordOf 0x33 0 0 0) (BitVec.ofNat 32 d.length))) ∧
    (IsPacket d →
      Answers (exec (.pktclass d) s) s (.packetClass
        (if at' d 4 = 1 then .radio else if at' d 4 = 2 then .response else if at' d 4 = 4 then .event else .other)))

/-! ### The whole machine -/

/-- R260: what reset leaves. -/
def Obligations.ResetLeavesAnEmptyBuffer : Prop :=
  State.reset.buf = [] ∧ State.reset.faulted = false ∧ State.reset.refused = false

/-- The invariant holds at reset. -/
def Obligations.InvHoldsAtReset : Prop := State.reset.Inv

/-- Every step keeps the invariant: a finite buffer is never overfull, no refusal or fault is delivered without its
mark, the unbounded instance never faults, the data of every response is sound, and a finite result is never overfull,
counted in packets, which is the model's choice (notes/assumptions/4.md). -/
def Obligations.StepKeepsInv : Prop := ∀ s t : State, s.Inv → step s = .next t → t.Inv

/-- R30: reset starts both marks false; `faulted` is set by exactly the steps that end in a fault and `refused` by
exactly those that end in a refusal; no step clears a mark, CLRBUF's among them. -/
def Obligations.MarksAreSticky : Prop :=
  State.reset.faulted = false ∧ State.reset.refused = false ∧
  ∀ s t : State, decode s.port ≠ .incomplete → step s = .next t →
    (t.refused = true ↔ s.refused = true ∨ ∃ r, t.answer = some (.refused r)) ∧
    (t.faulted = true ↔ s.faulted = true ∨ ∃ f, t.answer = some (.faulted f))

/-- R20, R26: the buffer is written only by ADDDATA, PARSE and CLRBUF; every other command leaves it, and no command
changes the port or the instance's parameters. -/
def Obligations.OnlyFramerCommandsWriteTheBuffer : Prop :=
  ∀ (i : Instr) (s t : State), exec i s = .next t →
    t.port = s.port ∧ t.config = s.config ∧
    (t.buf ≠ s.buf → (∃ d, i = .adddata d) ∨ i = .parse ∨ i = .clrbuf)

/-- R29: the checksum, bit-field and decoder commands hold no state: what each answers is the same in every state, so
nothing of the buffer, the marks or earlier commands shows in it. -/
def Obligations.StatelessCommandsSeeOnlyTheirOperands : Prop :=
  ∀ (i : Instr) (s s' t t' : State),
    (∀ d, i ≠ .adddata d) → i ≠ .parse → i ≠ .clrbuf → i ≠ .bufsize →
    exec i s = .next t → exec i s' = .next t' → t.answer = t'.answer

/-- R261: CLRBUF brings the buffer to its reset value and clears no mark; so from a state with neither mark set it
leaves the block's state as reset leaves it. -/
def Obligations.ClrbufRestoresTheResetState : Prop :=
  ∀ s : State, ∃ t, exec .clrbuf s = .next t ∧ t.buf = State.reset.buf ∧
    t.faulted = s.faulted ∧ t.refused = s.refused ∧
    (s.faulted = false → s.refused = false →
      t.buf = State.reset.buf ∧ t.faulted = State.reset.faulted ∧ t.refused = State.reset.refused)

/-- R250 to R252, R254 (the host's duties, outside the block). What a session keeps, holds at the start and after every
input. On a transport error or close while connected the host issues CLRBUF and schedules the first reconnect; each
failed reconnect increments the counter first and schedules the next, and the fifth failure behind that schedules none
and leaves the session disconnected; a failed explicit connect returns the error to the caller and schedules none. The
run of a lost connection and five failed reconnects has the delays 2000, 4000, 8000, 16000 and 30000 ms and no sixth.
That a failed reconnect counts, that the counter stays after exhaustion, that a chunk while not connected is dropped, and
that an error or close while not connected counts as no failure is the model's reading (notes/assumptions/9.md). -/
def Obligations.HostBacksOffAndClears : Prop :=
  SessionSound Session.initial ∧
  (∀ (h : Session) (e : SessionInput), SessionSound h → SessionSound (h.step e).session) ∧
  (∀ h : Session, SessionSound h → h.phase = .connected → ∀ e ∈ [SessionInput.transportError, .transportClosed],
    (h.step e).commands = [.clrbuf] ∧
    (h.step e).session = { phase := .reconnecting, attempts := 1, timer := some 2000 }) ∧
  (∀ h : Session, SessionSound h → h.phase = .connecting false → (h.step .openFailed).commands = [] ∧
    (h.attempts < 5 → (h.step .openFailed).session =
      { phase := .reconnecting, attempts := h.attempts + 1, timer := some (min (1000 * 2 ^ (h.attempts + 1)) 30000) }) ∧
    (h.attempts = 5 → (h.step .openFailed).session = { phase := .disconnected, attempts := 6, timer := none })) ∧
  (∀ h : Session, SessionSound h → h.phase = .connecting true →
    (h.step .openFailed).reply = some .openError ∧ (h.step .openFailed).session = { h with phase := .disconnected }) ∧
  (∀ (h : Session) (d : List Byte), h.phase ≠ .connected →
    (h.step (.chunk d)).commands = [] ∧ (h.step (.chunk d)).session = h) ∧
  (Session.initial.run ([.connect true, .opened, .transportError] ++
      (List.replicate 5 [SessionInput.timerFired, .openFailed]).flatten)).map (fun r => r.session.timer) =
    [none, none, some 2000, none, some 4000, none, some 8000, none, some 16000, none, some 30000, none, none]

/-- R246 to R248 (the host's duties, outside the block): on a chunk while connected the host issues ADDDATA, then PARSE,
and dispatches every packet PARSE returned, in order; dispatching leaves the buffer and the marks as PARSE left them, and
the session as it was. -/
def Obligations.HostDispatchesEveryPacketInOrder : Prop :=
  ∀ (w : Site) (d : List Byte), w.session.phase = .connected →
    ∃ a b ps evss, exec (.adddata d) w.block = .next a ∧ exec .parse a = .next b ∧
      b.answer = some (.response (.packets ps)) ∧ List.Forall₂ EmitsFor ps evss ∧
      (w.step (.chunk d)).2 = evss.flatten ∧ (w.step (.chunk d)).1.session = w.session ∧
      (w.step (.chunk d)).1.block.buf = b.buf ∧ (w.step (.chunk d)).1.block.faulted = b.faulted ∧
      (w.step (.chunk d)).1.block.refused = b.refused
end

