-- ==== Sys2Proof/Laws/Decode.lean ====
section
/-! SUPPORT. The small lemmas of the command port's encoding: fields of a command word, the opcode map both ways, and
the stream operand. -/

namespace Sys2Proof

/-! ### Words and bytes -/

theorem be32_toNat (a b c d : Byte) :
    (be32 a b c d).toNat = a.toNat * 2 ^ 24 + b.toNat * 2 ^ 16 + c.toNat * 2 ^ 8 + d.toNat := by
  have hb := b.isLt
  have hc := c.isLt
  have hd := d.isLt
  simp only [be32, BitVec.toNat_append]
  rw [← Nat.shiftLeft_add_eq_or_of_lt (by omega), ← Nat.shiftLeft_add_eq_or_of_lt (by omega),
    ← Nat.shiftLeft_add_eq_or_of_lt (by omega)]
  simp only [Nat.shiftLeft_eq]
  omega

theorem fieldOP_toNat (w : Word32) : (fieldOP w).toNat = w.toNat / 2 ^ 24 % 256 := by
  simp [fieldOP, BitVec.extractLsb'_toNat, Nat.shiftRight_eq_div_pow]

theorem fieldA_toNat (w : Word32) : (fieldA w).toNat = w.toNat / 2 ^ 16 % 256 := by
  simp [fieldA, BitVec.extractLsb'_toNat, Nat.shiftRight_eq_div_pow]

theorem fieldP_toNat (w : Word32) : (fieldP w).toNat = w.toNat / 2 ^ 8 % 256 := by
  simp [fieldP, BitVec.extractLsb'_toNat, Nat.shiftRight_eq_div_pow]

theorem fieldQ_toNat (w : Word32) : (fieldQ w).toNat = w.toNat % 256 := by
  simp [fieldQ, BitVec.extractLsb'_toNat]

@[simp] theorem fieldOP_be32 (a b c d : Byte) : fieldOP (be32 a b c d) = a := by
  apply BitVec.eq_of_toNat_eq
  rw [fieldOP_toNat, be32_toNat]
  omega

@[simp] theorem fieldA_be32 (a b c d : Byte) : fieldA (be32 a b c d) = b := by
  apply BitVec.eq_of_toNat_eq
  rw [fieldA_toNat, be32_toNat]
  omega

@[simp] theorem fieldP_be32 (a b c d : Byte) : fieldP (be32 a b c d) = c := by
  apply BitVec.eq_of_toNat_eq
  rw [fieldP_toNat, be32_toNat]
  omega

@[simp] theorem fieldQ_be32 (a b c d : Byte) : fieldQ (be32 a b c d) = d := by
  apply BitVec.eq_of_toNat_eq
  rw [fieldQ_toNat, be32_toNat]
  omega

theorem packCommand_eq (op a p q : Byte) : packCommand op a p q = be32 op a p q := rfl

theorem bytes32_eq (w : Word32) : bytes32 w = [fieldOP w, fieldA w, fieldP w, fieldQ w] := rfl

@[simp] theorem bytes32_be32 (a b c d : Byte) : bytes32 (be32 a b c d) = [a, b, c, d] := by simp [bytes32_eq]

@[simp] theorem bytes32_length (w : Word32) : (bytes32 w).length = 4 := rfl

/-- A word is the word of its four bytes. -/
theorem be32_fields (w : Word32) : be32 (fieldOP w) (fieldA w) (fieldP w) (fieldQ w) = w := by
  apply BitVec.eq_of_toNat_eq
  have hw := w.isLt
  rw [be32_toNat, fieldOP_toNat, fieldA_toNat, fieldP_toNat, fieldQ_toNat]
  omega

/-! ### The opcode map -/

@[simp] theorem Opcode.ofByte_toByte (o : Opcode) : Opcode.ofByte o.toByte = some o := by cases o <;> rfl

/-- An opcode value that stands for an opcode is that opcode's value. -/
theorem Opcode.ofByte_eq_some {b : Byte} {o : Opcode} (h : Opcode.ofByte b = some o) : o.toByte = b := by
  have := List.find?_some h
  simpa using this

/-! ### Streams -/

theorem lengthWord_toNat {d : List Byte} (h : d.length < 2 ^ 32) : (lengthWord d).toNat = d.length := by
  simp only [lengthWord, BitVec.toNat_ofNat]
  exact Nat.mod_eq_of_lt h

/-- A stream that has wholly arrived is taken, and nothing behind it. -/
theorem takeStream_cons {l0 l1 l2 l3 : Byte} {d : List Byte} (rest : List Byte)
    (h : (be32 l0 l1 l2 l3).toNat = d.length) :
    takeStream (l0 :: l1 :: l2 :: l3 :: (d ++ rest)) = some (d, rest) := by
  simp [takeStream, h]

/-- A stream that is taken stood behind its own length word. -/
theorem takeStream_eq_some {t d rest : List Byte} (h : takeStream t = some (d, rest)) :
    ∃ l0 l1 l2 l3, t = l0 :: l1 :: l2 :: l3 :: (d ++ rest) ∧ (be32 l0 l1 l2 l3).toNat = d.length := by
  match t with
  | [] | [_] | [_, _] | [_, _, _] => simp [takeStream] at h
  | l0 :: l1 :: l2 :: l3 :: u =>
    simp only [takeStream] at h
    split at h
    · rename_i hle
      simp only [Option.some.injEq, Prod.mk.injEq] at h
      obtain ⟨rfl, rfl⟩ := h
      exact ⟨l0, l1, l2, l3, by simp, by simp; omega⟩
    · simp at h

/-- A taken stream is taken with more bytes behind it. -/
theorem takeStream_append {t d rest : List Byte} (more : List Byte) (h : takeStream t = some (d, rest)) :
    takeStream (t ++ more) = some (d, rest ++ more) := by
  obtain ⟨l0, l1, l2, l3, rfl, hl⟩ := takeStream_eq_some h
  simpa using takeStream_cons (rest ++ more) hl

/-! ### The decoder -/

/-- Everything the decoder can answer about four bytes and what follows. -/
theorem decode_cons (op a p q : Byte) (t : List Byte) :
    decode (op :: a :: p :: q :: t) =
      match Opcode.ofByte op with
      | none => .illegalOpcode (be32 op a p q) t
      | some o =>
        if o.format.hasStream then
          match takeStream t with
          | some (d, rest) => decodeFields o (be32 op a p q) d rest
          | none => .incomplete
        else decodeFields o (be32 op a p q) [] t := by
  simp only [decode, fieldOP_be32] <;> rfl

theorem decode_short {port : List Byte} (h : port.length < 4) : decode port = .incomplete := by
  match port with
  | [] | [_] | [_, _] | [_, _, _] => rfl
  | _ :: _ :: _ :: _ :: _ => simp at h; omega

/-- The decoder's verdict with `more` bytes behind what it read. -/
def Decoded.behind (more : List Byte) : Decoded → Decoded
  | .incomplete => .incomplete
  | .illegalOpcode cw rest => .illegalOpcode cw (rest ++ more)
  | .reservedField cw rest => .reservedField cw (rest ++ more)
  | .command i rest => .command i (rest ++ more)

theorem decodeFields_behind (o : Opcode) (cw : Word32) (d rest more : List Byte) :
    decodeFields o cw d (rest ++ more) = (decodeFields o cw d rest).behind more := by
  unfold decodeFields
  split <;> rfl

/-- Bytes behind a whole command change nothing of its decoding. -/
theorem decode_append {port : List Byte} (more : List Byte) (h : decode port ≠ .incomplete) :
    decode (port ++ more) = (decode port).behind more := by
  match port with
  | [] | [_] | [_, _] | [_, _, _] => exact absurd rfl h
  | op :: a :: p :: q :: t =>
    simp only [List.cons_append, decode_cons] at h ⊢
    cases hb : Opcode.ofByte op with
    | none => rfl
    | some o =>
      simp only [hb] at h ⊢
      cases hs : o.format.hasStream with
      | false => simpa [hs] using decodeFields_behind _ _ _ _ _
      | true =>
        simp only [hs, if_true] at h ⊢
        cases ht : takeStream t with
        | none => simp [ht] at h
        | some dr =>
          obtain ⟨d, rest⟩ := dr
          rw [takeStream_append more ht]
          exact decodeFields_behind _ _ _ _ _

end Sys2Proof
end

