-- ==== Sys2Proof/Laws/State.lean ====
section
/-! SUPPORT. One lemma per field per update of State, so that no later proof unfolds a record update. -/

namespace Sys2Proof.Machine

variable (s : State)

@[simp] theorem State.setBuf_buf (b : List Byte) : (s.setBuf b).buf = b := rfl
@[simp] theorem State.setBuf_faulted (b : List Byte) : (s.setBuf b).faulted = s.faulted := rfl
@[simp] theorem State.setBuf_refused (b : List Byte) : (s.setBuf b).refused = s.refused := rfl
@[simp] theorem State.setBuf_config (b : List Byte) : (s.setBuf b).config = s.config := rfl
@[simp] theorem State.setBuf_port (b : List Byte) : (s.setBuf b).port = s.port := rfl
@[simp] theorem State.setBuf_answer (b : List Byte) : (s.setBuf b).answer = s.answer := rfl

@[simp] theorem State.bufAppend_buf (d : List Byte) : (s.bufAppend d).buf = s.buf ++ d := rfl
@[simp] theorem State.bufAppend_faulted (d : List Byte) : (s.bufAppend d).faulted = s.faulted := rfl
@[simp] theorem State.bufAppend_refused (d : List Byte) : (s.bufAppend d).refused = s.refused := rfl
@[simp] theorem State.bufAppend_config (d : List Byte) : (s.bufAppend d).config = s.config := rfl
@[simp] theorem State.bufAppend_port (d : List Byte) : (s.bufAppend d).port = s.port := rfl
@[simp] theorem State.bufAppend_answer (d : List Byte) : (s.bufAppend d).answer = s.answer := rfl

@[simp] theorem State.setPort_buf (p : List Byte) : (s.setPort p).buf = s.buf := rfl
@[simp] theorem State.setPort_faulted (p : List Byte) : (s.setPort p).faulted = s.faulted := rfl
@[simp] theorem State.setPort_refused (p : List Byte) : (s.setPort p).refused = s.refused := rfl
@[simp] theorem State.setPort_config (p : List Byte) : (s.setPort p).config = s.config := rfl
@[simp] theorem State.setPort_port (p : List Byte) : (s.setPort p).port = p := rfl
@[simp] theorem State.setPort_answer (p : List Byte) : (s.setPort p).answer = s.answer := rfl

@[simp] theorem State.offer_buf (p : List Byte) : (s.offer p).buf = s.buf := rfl
@[simp] theorem State.offer_faulted (p : List Byte) : (s.offer p).faulted = s.faulted := rfl
@[simp] theorem State.offer_refused (p : List Byte) : (s.offer p).refused = s.refused := rfl
@[simp] theorem State.offer_config (p : List Byte) : (s.offer p).config = s.config := rfl
@[simp] theorem State.offer_port (p : List Byte) : (s.offer p).port = s.port ++ p := rfl
@[simp] theorem State.offer_answer (p : List Byte) : (s.offer p).answer = s.answer := rfl

@[simp] theorem State.setAnswer_buf (a : Answer) : (s.setAnswer a).buf = s.buf := rfl
@[simp] theorem State.setAnswer_faulted (a : Answer) : (s.setAnswer a).faulted = s.faulted := rfl
@[simp] theorem State.setAnswer_refused (a : Answer) : (s.setAnswer a).refused = s.refused := rfl
@[simp] theorem State.setAnswer_config (a : Answer) : (s.setAnswer a).config = s.config := rfl
@[simp] theorem State.setAnswer_port (a : Answer) : (s.setAnswer a).port = s.port := rfl
@[simp] theorem State.setAnswer_answer (a : Answer) : (s.setAnswer a).answer = some a := rfl

@[simp] theorem State.markRefused_buf : s.markRefused.buf = s.buf := rfl
@[simp] theorem State.markRefused_faulted : s.markRefused.faulted = s.faulted := rfl
@[simp] theorem State.markRefused_refused : s.markRefused.refused = true := rfl
@[simp] theorem State.markRefused_config : s.markRefused.config = s.config := rfl
@[simp] theorem State.markRefused_port : s.markRefused.port = s.port := rfl
@[simp] theorem State.markRefused_answer : s.markRefused.answer = s.answer := rfl

@[simp] theorem State.markFaulted_buf : s.markFaulted.buf = s.buf := rfl
@[simp] theorem State.markFaulted_faulted : s.markFaulted.faulted = true := rfl
@[simp] theorem State.markFaulted_refused : s.markFaulted.refused = s.refused := rfl
@[simp] theorem State.markFaulted_config : s.markFaulted.config = s.config := rfl
@[simp] theorem State.markFaulted_port : s.markFaulted.port = s.port := rfl
@[simp] theorem State.markFaulted_answer : s.markFaulted.answer = s.answer := rfl

end Sys2Proof.Machine
end

