-- ==== Sys2Proof/Laws/Ops.lean ====
section
/-! SUPPORT. What each shared operation can do, said once: the ends of a command, the two operand checks, and the
checksum. -/

namespace Sys2Proof.Machine

/-! ### Ends of a command -/

theorem respond_eq (r : Response) (s : State) : respond r s = .next { s with answer := some (.response r) } := rfl

theorem refuse_eq (r : RefusalReport) (s : State) :
    refuse r s = .next { s with refused := true, answer := some (.refused r) } := rfl

theorem overflow_eq (cw lw : Word32) (s : State) :
    overflow cw lw s =
      .next { s with faulted := true, answer := some (.faulted (.bufferOverflow cw lw s.buf.length)) } := rfl

theorem awaitCommand_eq (s : State) : awaitCommand s = .next s := rfl

/-- If the range check answers next, either the operands are in range and `k` answered it, or it is the refusal. -/
theorem checkRange_next {i : Instr} {s t : State} {k : Out} (h : checkRange i s k = .next t) :
    (operandsInRange i = true ∧ k = .next t) ∨
    (operandsInRange i = false ∧
      t = { s with refused := true, answer := some (.refused (.operandRange i.commandWord)) }) := by
  cases hr : operandsInRange i with
  | true => exact .inl ⟨rfl, by simpa [checkRange, hr] using h⟩
  | false =>
    rw [checkRange, hr, if_neg Bool.false_ne_true, refuse_eq] at h
    exact .inr ⟨rfl, by injection h with h; exact h.symm⟩

theorem checkRange_of_inRange {i : Instr} (s : State) (k : Out) (h : operandsInRange i = true) :
    checkRange i s k = k := by simp [checkRange, h]

theorem checkRange_of_outOfRange {i : Instr} (s : State) (k : Out) (h : operandsInRange i = false) :
    checkRange i s k = refuse (.operandRange i.commandWord) s := by simp [checkRange, h]

/-- If the packet check answers next, either the stream is an accepted packet and `k` answered it, or it is the
refusal. -/
theorem checkPacket_next {i : Instr} {d : List Byte} {s t : State} {k : Out} (h : checkPacket i d s k = .next t) :
    (accepted d = true ∧ k = .next t) ∨
    (accepted d = false ∧
      t = { s with refused := true, answer := some (.refused (.notAPacket i.commandWord (lengthWord d))) }) := by
  cases hr : accepted d with
  | true => exact .inl ⟨rfl, by simpa [checkPacket, hr] using h⟩
  | false =>
    rw [checkPacket, hr, if_neg Bool.false_ne_true, refuse_eq] at h
    exact .inr ⟨rfl, by injection h with h; exact h.symm⟩

theorem checkPacket_of_accepted (i : Instr) {d : List Byte} (s : State) (k : Out) (h : accepted d = true) :
    checkPacket i d s k = k := by simp [checkPacket, h]

theorem checkPacket_of_not_accepted (i : Instr) {d : List Byte} (s : State) (k : Out) (h : accepted d = false) :
    checkPacket i d s k = refuse (.notAPacket i.commandWord (lengthWord d)) s := by simp [checkPacket, h]

/-! ### The checksum -/

@[simp] theorem crc8_nil : crc8 [] = 0 := rfl

theorem crc8_append (s t : List Byte) : crc8 (s ++ t) = t.foldl crcStep (crc8 s) := by simp [crc8]

theorem crc8_snoc (s : List Byte) (b : Byte) : crc8 (s ++ [b]) = crcStep (crc8 s) b := by simp [crc8_append]

theorem crcStep_self (b : Byte) : crcStep b b = 0 := by simp [crcStep, crcRounds, crcRound]

/-! ### Reads -/

theorem bufRead_eq (b : List Byte) (i : Nat) : bufRead b i = b[i]? := rfl

/-- Reading four bytes succeeds exactly when they are there. -/
theorem be32At_isSome (b : List Byte) (i : Nat) : (be32At b i).isSome = decide (i + 4 ≤ b.length) := by
  have hl : (b.drop i).length = b.length - i := List.length_drop
  unfold be32At
  match h : b.drop i with
  | [] | [_] | [_, _] | [_, _, _] => simp_all; omega
  | _ :: _ :: _ :: _ :: _ => simp_all; omega

/-! ### Headers -/

/-- A header stands at the front exactly of the sequences of at least six bytes. -/
theorem headerOf_isSome (b : List Byte) : (headerOf b).isSome = decide (6 ≤ b.length) := by
  match b with
  | [] | [_] | [_, _] | [_, _, _] | [_, _, _, _] | [_, _, _, _, _] => rfl
  | _ :: _ :: _ :: _ :: _ :: _ :: _ => simp [headerOf]

theorem headerOf_eq_none_iff (b : List Byte) : headerOf b = none ↔ b.length < 6 := by
  have h := headerOf_isSome b
  cases hb : headerOf b <;> simp_all

theorem headerOf_eq_some {b : List Byte} {h : Header} (hb : headerOf b = some h) :
    ∃ t, b = h.sync :: h.lenHi :: h.lenLo :: h.optLen :: h.packetType :: h.crc :: t := by
  match b with
  | [] | [_] | [_, _] | [_, _, _] | [_, _, _, _] | [_, _, _, _, _] => simp [headerOf] at hb
  | b0 :: b1 :: b2 :: b3 :: b4 :: b5 :: t =>
    simp only [headerOf, Option.some.injEq] at hb
    subst hb
    exact ⟨t, rfl⟩

/-- The header depends on the first six bytes only. -/
theorem headerOf_append {b : List Byte} {h : Header} (t : List Byte) (hb : headerOf b = some h) :
    headerOf (b ++ t) = some h := by
  obtain ⟨u, rfl⟩ := headerOf_eq_some hb
  rfl

theorem Header.totalSize_eq (h : Header) : h.totalSize = 7 + h.bodyLen := by
  simp only [Header.totalSize, headerLen]
  omega

/-- The body check depends on the packet's own bytes only. -/
theorem bodyValid_append {h : Header} {b : List Byte} (t : List Byte) (hl : h.totalSize ≤ b.length) :
    bodyValid h (b ++ t) = bodyValid h b := by
  rw [h.totalSize_eq] at hl
  have h1 : 6 ≤ b.length := by omega
  have h2 : h.bodyLen ≤ (b.drop 6).length := by simp; omega
  simp only [bodyValid, bufRead, headerLen]
  rw [List.getElem?_append_left (by omega), List.drop_append_of_le_length h1, List.take_append_of_le_length h2]

/-- What acceptance says, with the header named. -/
theorem accepted_iff (b : List Byte) :
    accepted b = true ↔ ∃ h, headerOf b = some h ∧ h.valid = true ∧ b.length = h.totalSize ∧ bodyValid h b = true := by
  unfold accepted
  cases headerOf b with
  | none => simp
  | some h => simp [and_assoc]

end Sys2Proof.Machine
end

