-- ==== Sys2Proof/Laws/Exec.lean ====
section
/-! SUPPORT. What a command and a step can do, said once: the ways `exec` and `step` can end, the checks in front of a
meaning, and that no command looks at the port. -/

namespace Sys2Proof.Machine

/-! ### The instruction an opcode and its fields make -/

/-- The command built for an opcode has that opcode. -/
theorem Opcode.build_opcode (o : Opcode) (a p q : Byte) (d : List Byte) : (o.build a p q d).opcode = o := by cases o <;> rfl

/-- Where the must-be-zero fields are zero, the built command's word is the word that was read. -/
theorem Opcode.build_word (o : Opcode) (a p q : Byte) (d : List Byte) (h : o.format.reservedClear (be32 o.toByte a p q) = true) :
    (o.build a p q d).commandWord = be32 o.toByte a p q := by
  cases o <;> simp [Opcode.format, Format.reservedClear] at h <;> simp [Opcode.build, Instr.commandWord, packCommand_eq, h]

/-- A built command carries the stream exactly in the stream formats. -/
theorem Opcode.build_stream (o : Opcode) (a p q : Byte) (d : List Byte) :
    (o.build a p q d).stream? = if o.format.hasStream then some d else none := by
  cases o <;> rfl

/-! ### Checks in front of a meaning -/

/-- Every command whose operands are out of range is refused before any effect (R86). -/
theorem exec_outOfRange (i : Instr) (s : State) (h : operandsInRange i = false) :
    exec i s = refuse (.operandRange i.commandWord) s := by
  cases i with
  | getbit b p => exact checkRange_of_outOfRange _ _ h
  | getbits b l u => exact checkRange_of_outOfRange _ _ h
  | rocker c => exact checkRange_of_outOfRange _ _ h
  | decode c d => exact checkRange_of_outOfRange _ _ h
  | _ => cases h

/-- Every decoder command in range whose stream is no accepted packet is refused (R180). -/
theorem exec_notPacket (i : Instr) {d : List Byte} (s : State) (h : operandsInRange i = true)
    (hi : i = .telegram d ∨ i = .detect d ∨ (∃ c, i = .decode c d) ∨ i = .pktclass d)
    (hd : accepted d = false) : exec i s = refuse (.notAPacket i.commandWord (lengthWord d)) s := by
  rcases hi with rfl | rfl | ⟨c, rfl⟩ | rfl
  · exact checkPacket_of_not_accepted _ _ _ hd
  · exact checkPacket_of_not_accepted _ _ _ hd
  · exact (checkRange_of_inRange _ _ h).trans (checkPacket_of_not_accepted _ _ _ hd)
  · exact checkPacket_of_not_accepted _ _ _ hd

/-! ### How a command and a step end -/

/-- Everything a command can do: answer a response, with a new buffer only in three commands; be refused; or fault,
which takes a finite capacity. -/
theorem exec_cases (i : Instr) (s : State) :
    (∃ r b, exec i s = .next { s with buf := b, answer := some (.response r) } ∧
      (b = s.buf ∨ (∃ d, i = .adddata d) ∨ i = .parse ∨ i = .clrbuf)) ∨
    (∃ r, exec i s = .next { s with refused := true, answer := some (.refused r) }) ∨
    (∃ f, exec i s = .next { s with faulted := true, answer := some (.faulted f) } ∧ s.config.bufCap ≠ none) := by
  have R : ∀ r, respond r s = .next { s with buf := s.buf, answer := some (.response r) } := fun _ => rfl
  cases i with
  | adddata d =>
    simp only [exec, execAdddata]
    by_cases h : fitsCapacity s.config.bufCap (s.buf.length + d.length) = true
    · rw [if_pos h]; exact .inl ⟨_, _, rfl, .inr (.inl ⟨_, rfl⟩)⟩
    · rw [if_neg h]; refine .inr (.inr ⟨_, rfl, fun hc => h ?_⟩); rw [hc]; rfl
  | parse => exact .inl ⟨_, _, rfl, .inr (.inr (.inl rfl))⟩
  | clrbuf => exact .inl ⟨_, _, rfl, .inr (.inr (.inr rfl))⟩
  | getbit b p =>
    simp only [exec, execGetbit, checkRange]; split
    · exact .inl ⟨_, _, rfl, .inl rfl⟩
    · exact .inr (.inl ⟨_, rfl⟩)
  | getbits b l h =>
    simp only [exec, execGetbits, checkRange]; split
    · exact .inl ⟨_, _, rfl, .inl rfl⟩
    · exact .inr (.inl ⟨_, rfl⟩)
  | rocker c =>
    simp only [exec, execRocker, checkRange]; split
    · exact .inl ⟨_, _, rfl, .inl rfl⟩
    · exact .inr (.inl ⟨_, rfl⟩)
  | telegram d =>
    simp only [exec, execTelegram, checkPacket]; split
    · exact .inl ⟨_, _, rfl, .inl rfl⟩
    · exact .inr (.inl ⟨_, rfl⟩)
  | detect d =>
    simp only [exec, execDetect, checkPacket]; split
    · exact .inl ⟨_, _, rfl, .inl rfl⟩
    · exact .inr (.inl ⟨_, rfl⟩)
  | pktclass d =>
    simp only [exec, execPktclass, checkPacket]; split
    · exact .inl ⟨_, _, rfl, .inl rfl⟩
    · exact .inr (.inl ⟨_, rfl⟩)
  | decode c d =>
    simp only [exec, execDecode, checkRange, checkPacket]; split
    · split
      · exact .inl ⟨_, _, rfl, .inl rfl⟩
      · exact .inr (.inl ⟨_, rfl⟩)
    · exact .inr (.inl ⟨_, rfl⟩)
  | _ => exact .inl ⟨_, _, rfl, .inl rfl⟩

/-- Everything a step can do when a whole command stands on the port. -/
theorem step_cases (s : State) (hd : decode s.port ≠ .incomplete) :
    ∃ p, (∃ r b, step s = .next { s with buf := b, port := p, answer := some (.response r) }) ∨
    (∃ r, step s = .next { s with port := p, refused := true, answer := some (.refused r) }) ∨
    (∃ f, step s = .next { s with port := p, faulted := true, answer := some (.faulted f) } ∧ s.config.bufCap ≠ none) := by
  unfold step
  cases hd' : decode s.port with
  | incomplete => exact absurd hd' hd
  | illegalOpcode cw rest => exact ⟨rest, .inr (.inl ⟨_, rfl⟩)⟩
  | reservedField cw rest => exact ⟨rest, .inr (.inl ⟨_, rfl⟩)⟩
  | command i rest =>
    refine ⟨rest, ?_⟩
    rcases exec_cases i (s.setPort rest) with ⟨r, b, e, hb⟩ | ⟨r, e⟩ | ⟨f, e, h⟩
    · exact .inl ⟨r, b, e⟩
    · exact .inr (.inl ⟨r, e⟩)
    · exact .inr (.inr ⟨f, e, h⟩)

/-- No command looks at the port. -/
theorem exec_setPort (i : Instr) (s t : State) (p : List Byte) (h : exec i s = .next t) :
    exec i (s.setPort p) = .next (t.setPort p) := by
  have base : ∀ (c : Bool) (x y x' y' : State), (if c then (.next x : Out) else .next y) = .next t →
      (c = true → x' = x.setPort p) → (c = false → y' = y.setPort p) → (if c then (.next x' : Out) else .next y') = .next (t.setPort p) := by
    intro c x y x' y' h hx hy
    cases c
    · simp at h ⊢; rw [hy rfl, h]
    · simp at h ⊢; rw [hx rfl, h]
  cases i with
  | decode sel d =>
    simp only [exec, execDecode, checkRange, checkPacket, respond_eq, refuse_eq] at h ⊢
    cases hr : operandsInRange (.decode sel d) <;> cases ha : accepted d <;> simp [hr, ha] at h ⊢ <;> subst h <;> rfl
  | adddata d => exact base _ _ _ _ _ h (fun _ => rfl) (fun _ => rfl)
  | getbit a b => exact base _ _ _ _ _ h (fun _ => rfl) (fun _ => rfl)
  | getbits a b c => exact base _ _ _ _ _ h (fun _ => rfl) (fun _ => rfl)
  | rocker a => exact base _ _ _ _ _ h (fun _ => rfl) (fun _ => rfl)
  | telegram d => exact base _ _ _ _ _ h (fun _ => rfl) (fun _ => rfl)
  | detect d => exact base _ _ _ _ _ h (fun _ => rfl) (fun _ => rfl)
  | pktclass d => exact base _ _ _ _ _ h (fun _ => rfl) (fun _ => rfl)
  | _ => injection h with h; subst h; rfl

end Sys2Proof.Machine
end

