-- ==== Sys2Proof/Laws/Framer.lean ====
section
/-! SUPPORT. PARSE's loop, said once: what one pass can decide, that a pass which does not end the loop drops bytes,
that the loop's bound is never what ends it, and so the loop's own equations. -/

namespace Sys2Proof.Machine

/-! ### The sync search -/

theorem toSync_append_of_ne_nil {b : List Byte} (t : List Byte) (h : toSync b ≠ []) :
    toSync (b ++ t) = toSync b ++ t := by
  unfold toSync at *
  rw [List.dropWhile_append]
  simp [h]

theorem toSync_append_of_nil {b : List Byte} (t : List Byte) (h : toSync b = []) : toSync (b ++ t) = toSync t := by
  unfold toSync at *
  rw [List.dropWhile_append]
  simp [h]

/-- The bytes dropped by the search are in front of what it leaves. -/
theorem toSync_suffix (b : List Byte) : toSync b <:+ b := List.dropWhile_suffix _

theorem toSync_length_le (b : List Byte) : (toSync b).length ≤ b.length := (toSync_suffix b).length_le

/-- What the search leaves starts with the sync byte. -/
theorem toSync_head {b : List Byte} {x : Byte} {t : List Byte} (h : toSync b = x :: t) : x = syncByte := by
  have := List.head?_dropWhile_not (fun x => x != syncByte) b
  unfold toSync at h
  rw [h] at this
  simpa using this

theorem toSync_of_sync (t : List Byte) : toSync (syncByte :: t) = syncByte :: t := by
  simp [toSync]

/-! ### One pass -/

/-- Everything a pass on an aligned copy can decide. -/
theorem passAligned_cases (b : List Byte) :
    (headerOf b = none ∧ passAligned b = .stop b) ∨
    (∃ h, headerOf b = some h ∧ h.valid = false ∧ passAligned b = .resync (b.drop 1)) ∨
    (∃ h, headerOf b = some h ∧ h.valid = true ∧ b.length < h.totalSize ∧ passAligned b = .stop b) ∨
    (∃ h, headerOf b = some h ∧ h.valid = true ∧ h.totalSize ≤ b.length ∧ bodyValid h b = false ∧
      passAligned b = .resync (b.drop 1)) ∨
    (∃ h, headerOf b = some h ∧ h.valid = true ∧ h.totalSize ≤ b.length ∧ bodyValid h b = true ∧
      passAligned b = .packet (b.take h.totalSize) (b.drop h.totalSize)) := by
  unfold passAligned
  cases hb : headerOf b with
  | none => simp
  | some h =>
    cases hv : h.valid with
    | false => simp [hv, bufDrop]
    | true =>
      by_cases hl : b.length < h.totalSize
      · simp [hv, hl]
      · cases hc : bodyValid h b <;> simp [hv, hl, hc, bufDrop] <;> omega

/-- A pass that does not end the loop leaves fewer bytes. -/
theorem parsePass_shrinks (b : List Byte) :
    (∀ left, parsePass b = .resync left → left.length < b.length) ∧
    (∀ p left, parsePass b = .packet p left → left.length < b.length) := by
  unfold parsePass
  split
  · simp
  · rename_i hlen
    have hle := toSync_length_le b
    simp only [headerLen] at hlen
    rcases passAligned_cases (toSync b) with ⟨-, h⟩ | ⟨g, -, -, h⟩ | ⟨g, -, -, -, h⟩ | ⟨g, -, -, -, -, h⟩ |
      ⟨g, -, -, hs, -, h⟩
    · simp [h]
    · simp [h]; omega
    · simp [h]
    · simp [h]; omega
    · rw [Header.totalSize_eq] at hs
      simp [h, Header.totalSize_eq]
      omega

/-! ### The loop -/

/-- The loop's bound never ends it: any bound of at least the buffer's length gives the same result (R161). -/
theorem parseLoop_eq_parseBuffer (fuel : Nat) (b : List Byte) (h : b.length ≤ fuel) :
    parseLoop fuel b = parseBuffer b := by
  have key : ∀ m n : Nat, ∀ b : List Byte, b.length ≤ m → b.length ≤ n → parseLoop m b = parseLoop n b := by
    intro m
    induction m with
    | zero =>
      intro n b hm _
      have : b = [] := List.length_eq_zero_iff.mp (by omega)
      subst this
      cases n <;> rfl
    | succ m ih =>
      intro n b hm hn
      cases n with
      | zero =>
        have : b = [] := List.length_eq_zero_iff.mp (by omega)
        subst this
        rfl
      | succ n =>
        obtain ⟨hr, hp⟩ := parsePass_shrinks b
        simp only [parseLoop]
        cases hpass : parsePass b with
        | stop left => rfl
        | resync left =>
          have := hr left hpass
          exact ih n left (by omega) (by omega)
        | packet p left =>
          have := hp p left hpass
          simp only [ih n left (by omega) (by omega)]
  exact key fuel b.length b h (Nat.le_refl _)

/-- The loop's equation: one pass, then the loop again (R154). -/
theorem parseBuffer_eq (b : List Byte) :
    parseBuffer b =
      match parsePass b with
      | .stop left => ([], left)
      | .resync left => parseBuffer left
      | .packet p left => (p :: (parseBuffer left).1, (parseBuffer left).2) := by
  rw [← parseLoop_eq_parseBuffer (b.length + 1) b (by omega), parseLoop]
  obtain ⟨hr, hp⟩ := parsePass_shrinks b
  cases hpass : parsePass b with
  | stop left => rfl
  | resync left => exact parseLoop_eq_parseBuffer _ _ (Nat.le_of_lt (hr left hpass))
  | packet p left => simp only [parseLoop_eq_parseBuffer _ _ (Nat.le_of_lt (hp p left hpass))]

theorem parseBuffer_of_stop {b left : List Byte} (h : parsePass b = .stop left) : parseBuffer b = ([], left) := by
  rw [parseBuffer_eq, h]

theorem parseBuffer_of_resync {b left : List Byte} (h : parsePass b = .resync left) :
    parseBuffer b = parseBuffer left := by
  rw [parseBuffer_eq, h]

theorem parseBuffer_of_packet {b p left : List Byte} (h : parsePass b = .packet p left) :
    parseBuffer b = (p :: (parseBuffer left).1, (parseBuffer left).2) := by
  rw [parseBuffer_eq, h]

/-- Induction along the loop's passes: a property of buffers holds of all when it holds of each buffer given that it
holds of what a pass which does not end the loop leaves. -/
theorem parse_induction {motive : List Byte → Prop}
    (pass : ∀ b, (∀ left, parsePass b = .resync left → motive left) →
      (∀ p left, parsePass b = .packet p left → motive left) → motive b) (b : List Byte) : motive b := by
  induction hn : b.length using Nat.strong_induction_on generalizing b with
  | _ n ih =>
    subst hn
    obtain ⟨hr, hp⟩ := parsePass_shrinks b
    exact pass b (fun left h => ih left.length (hr left h) left rfl) (fun p left h => ih left.length (hp p left h) left rfl)

/-! ### What PARSE delivers -/

theorem selectFrom_sublist (keep : Nat → Bool) (k : Nat) (ps : List (List Byte)) : (selectFrom keep k ps).Sublist ps := by
  induction ps generalizing k with
  | nil => exact List.nil_sublist _
  | cons p ps ih =>
    simp only [selectFrom]
    split
    · exact (ih (k + 1)).cons_cons p
    · exact (ih (k + 1)).cons p

@[simp] theorem delivered_none (b : List Byte) (ps : List (List Byte)) : delivered none b ps = ps := rfl

theorem delivered_of_le {c : Nat} (b : List Byte) {ps : List (List Byte)} (h : ps.length ≤ c) :
    delivered (some c) b ps = ps := by simp [delivered, h]

/-- Whatever the capacity, what is delivered are packets framed, in order. -/
theorem delivered_sublist (cap : Option Nat) (b : List Byte) (ps : List (List Byte)) :
    (delivered cap b ps).Sublist ps := by
  unfold delivered
  split
  · exact List.Sublist.refl ps
  · split
    · exact List.Sublist.refl ps
    · exact (List.take_sublist _ _).trans (selectFrom_sublist _ 0 ps)

/-- A finite result is never overfull. -/
theorem delivered_length_le (c : Nat) (b : List Byte) (ps : List (List Byte)) : (delivered (some c) b ps).length ≤ c := by
  simp only [delivered]
  split
  · assumption
  · exact List.length_take_le c _

end Sys2Proof.Machine
end

