-- ==== Sys2Proof/Laws/PerInstr.lean ====
section
/-! SUPPORT. Facts about every command as syntax, one lemma per constructor. Family `CommandShape`: the command word
carries the opcode of the map, and the command is rebuilt from its word's fields and its stream, its must-be-zero
fields being zero (spec 30_encoding.md R81, R84). -/

namespace Sys2Proof.Laws.CommandShape

/-- The command word names the command's opcode, obeys its format, and carries its operands. -/
def Statement (i : Instr) : Prop :=
  fieldOP i.commandWord = i.opcode.toByte ∧ i.opcode.format.reservedClear i.commandWord = true ∧
  i.opcode.format.hasStream = i.stream?.isSome ∧
  i.opcode.build (fieldA i.commandWord) (fieldP i.commandWord) (fieldQ i.commandWord) (i.stream?.getD []) = i

/-- The commands of format S share one shape. -/
theorem of_formatS {o : Opcode} {d : List Byte} {i : Instr} (hw : i.commandWord = be32 o.toByte 0 0 0)
    (ho : i.opcode = o) (hf : o.format = .S) (hs : i.stream? = some d) (hb : o.build 0 0 0 d = i) : Statement i := by
  refine ⟨by simp [hw, ho], by simp [hw, ho, hf, Format.reservedClear], by simp [ho, hf, hs, Format.hasStream], ?_⟩
  simpa [hw, ho, hs] using hb

theorem adddata (stream : List Byte) : Statement (.adddata stream) := of_formatS rfl rfl rfl rfl rfl
theorem parse : Statement .parse := ⟨rfl, rfl, rfl, rfl⟩
theorem clrbuf : Statement .clrbuf := ⟨rfl, rfl, rfl, rfl⟩
theorem bufsize : Statement .bufsize := ⟨rfl, rfl, rfl, rfl⟩
theorem crc8 (stream : List Byte) : Statement (.crc8 stream) := of_formatS rfl rfl rfl rfl rfl

theorem crcvfy (expected : Byte) (stream : List Byte) : Statement (.crcvfy expected stream) := by
  simp [Statement, Instr.commandWord, packCommand_eq, Instr.opcode, Opcode.format, Format.reservedClear,
    Format.hasStream, Instr.stream?, Opcode.build]

theorem getbit (byte pos : Byte) : Statement (.getbit byte pos) := by
  simp [Statement, Instr.commandWord, packCommand_eq, Instr.opcode, Opcode.format, Format.reservedClear,
    Format.hasStream, Instr.stream?, Opcode.build]

theorem getbits (byte lo hi : Byte) : Statement (.getbits byte lo hi) := by
  simp [Statement, Instr.commandWord, packCommand_eq, Instr.opcode, Opcode.format, Format.reservedClear,
    Format.hasStream, Instr.stream?, Opcode.build]

/-- The commands of format B share one shape. -/
theorem of_formatB {o : Opcode} {a : Byte} {i : Instr} (hw : i.commandWord = be32 o.toByte a 0 0) (ho : i.opcode = o)
    (hf : o.format = .B) (hs : i.stream? = none) (hb : o.build a 0 0 [] = i) : Statement i := by
  refine ⟨by simp [hw, ho], by simp [hw, ho, hf, Format.reservedClear], by simp [ho, hf, hs, Format.hasStream], ?_⟩
  simpa [hw, ho, hs] using hb

theorem hinib (byte : Byte) : Statement (.hinib byte) := of_formatB (a := byte) rfl rfl rfl rfl rfl
theorem lonib (byte : Byte) : Statement (.lonib byte) := of_formatB (a := byte) rfl rfl rfl rfl rfl
theorem msb (byte : Byte) : Statement (.msb byte) := of_formatB (a := byte) rfl rfl rfl rfl rfl
theorem rocker (code : Byte) : Statement (.rocker code) := of_formatB (a := code) rfl rfl rfl rfl rfl
theorem action (status : Byte) : Statement (.action status) := of_formatB (a := status) rfl rfl rfl rfl rfl
theorem cmdkind (nibble : Byte) : Statement (.cmdkind nibble) := of_formatB (a := nibble) rfl rfl rfl rfl rfl
theorem dimtime (raw : Byte) : Statement (.dimtime raw) := of_formatB (a := raw) rfl rfl rfl rfl rfl

theorem telegram (stream : List Byte) : Statement (.telegram stream) := of_formatS rfl rfl rfl rfl rfl
theorem detect (stream : List Byte) : Statement (.detect stream) := of_formatS rfl rfl rfl rfl rfl

theorem decode (selector : Byte) (stream : List Byte) : Statement (.decode selector stream) := by
  simp [Statement, Instr.commandWord, packCommand_eq, Instr.opcode, Opcode.format, Format.reservedClear,
    Format.hasStream, Instr.stream?, Opcode.build]

theorem pktclass (stream : List Byte) : Statement (.pktclass stream) := of_formatS rfl rfl rfl rfl rfl

/-- The family, for every command. -/
theorem holds (i : Instr) : Statement i :=
  match i with
  | .adddata a => adddata a
  | .parse => parse
  | .clrbuf => clrbuf
  | .bufsize => bufsize
  | .crc8 a => crc8 a
  | .crcvfy a b => crcvfy a b
  | .getbit a b => getbit a b
  | .getbits a b c => getbits a b c
  | .hinib a => hinib a
  | .lonib a => lonib a
  | .msb a => msb a
  | .rocker a => rocker a
  | .action a => action a
  | .cmdkind a => cmdkind a
  | .dimtime a => dimtime a
  | .telegram a => telegram a
  | .detect a => detect a
  | .decode a b => decode a b
  | .pktclass a => pktclass a

end Sys2Proof.Laws.CommandShape
end

