-- ==== Sys2Proof/Laws/Session.lean ====
section
/-! SUPPORT. What the host's dispatch of accepted packets does, said once: it moves nothing of the block but the answer,
and what it emits for a packet depends on the packet alone. -/

namespace Sys2Proof.Machine

/-! ### One decoder command of the host, on an accepted packet -/

theorem issue_pktclass (b : State) {p : List Byte} (h : accepted p = true) :
    issue b (.pktclass p) = { b with answer := some (.response (.packetClass (packetClassOf p))) } := by
  simp only [issue, exec, execPktclass, checkPacket_of_accepted _ _ _ h]
  rfl

theorem issue_telegram (b : State) {p : List Byte} (h : accepted p = true) :
    issue b (.telegram p) = { b with answer := some (.response (.telegram (telegramOf p))) } := by
  simp only [issue, exec, execTelegram, checkPacket_of_accepted _ _ _ h]
  rfl

theorem issue_decode_auto (b : State) {p : List Byte} (h : accepted p = true) :
    issue b (.decode 0 p) =
      { b with answer := some (.response (.event ((telegramOf p).bind (decodeTelegram 0)))) } := by
  simp only [issue, exec, execDecode, checkRange_of_inRange (.decode 0 p) b rfl, checkPacket_of_accepted _ _ _ h]
  rfl

/-! ### The dispatch -/

/-- What the host emits for an accepted packet, in any state of the block (R247, R248). -/
theorem dispatchPacket_events (b : State) {p : List Byte} (h : accepted p = true) :
    (dispatchPacket b p).2 =
      match packetClassOf p, telegramOf p with
      | .radio, some t => .radioTelegram t :: ((decodeTelegram 0 t).map HostEvent.profileEvent).toList
      | .radio, none => []
      | .response, _ => [.packet p]
      | .event, _ => [.packet p]
      | .other, _ => [] := by
  simp only [dispatchPacket, issue_pktclass b h, issue_telegram _ h, issue_decode_auto _ h, State.response]
  cases packetClassOf p <;> cases telegramOf p <;> try rfl
  rename_i t
  simp only [Option.bind_some]
  cases decodeTelegram 0 t <;> rfl

/-- Dispatching an accepted packet moves nothing of the block but the answer. -/
theorem dispatchPacket_block (b : State) {p : List Byte} (h : accepted p = true) :
    ∃ a, (dispatchPacket b p).1 = { b with answer := a } := by
  simp only [dispatchPacket, issue_pktclass b h, issue_telegram _ h, issue_decode_auto _ h, State.response]
  cases packetClassOf p <;> cases telegramOf p <;> try exact ⟨_, rfl⟩
  rename_i t
  simp only [Option.bind_some]
  cases decodeTelegram 0 t <;> exact ⟨_, rfl⟩

/-- Dispatching accepted packets moves nothing of the block but the answer, and emits for each in turn what it emits for
that packet (R246). -/
theorem dispatchAll_eq (b : State) (ps : List (List Byte)) (h : ∀ p ∈ ps, accepted p = true) :
    (∃ a, (dispatchAll b ps).1 = { b with answer := a }) ∧
    (dispatchAll b ps).2 = ps.flatMap (fun p => (dispatchPacket b p).2) := by
  induction ps generalizing b with
  | nil => exact ⟨⟨b.answer, rfl⟩, rfl⟩
  | cons p ps ih =>
    have hp := h p (by simp)
    obtain ⟨a, ha⟩ := dispatchPacket_block b hp
    obtain ⟨⟨a', ha'⟩, he⟩ := ih (dispatchPacket b p).1 (fun q hq => h q (by simp [hq]))
    refine ⟨⟨a', ha'.trans (by rw [ha])⟩, ?_⟩
    have hsame : ps.flatMap (fun q => (dispatchPacket (dispatchPacket b p).1 q).2) =
        ps.flatMap (fun q => (dispatchPacket b q).2) := by
      simp only [List.flatMap_def]
      congr 1
      exact List.map_congr_left fun q hq => by simp only [dispatchPacket_events _ (h q (by simp [hq]))]
    rw [List.flatMap_cons, ← hsame, ← he]
    rfl

end Sys2Proof.Machine
end

