-- ==== Sys2Proof/Machine/Assembly.lean ====
section
/-! DEFINITION. The assembler notation of the commands (spec 30_encoding.md R90, R91): the text of one line read as
commands, and a command written as a line. Text is a list of characters, so that the kernel can evaluate it. No part of
the machine uses it. -/

namespace Sys2Proof.Assembly

/-! ### Reading -/

/-- The parts of a text between separators; n separators give n + 1 parts. -/
def splitAt (sep : Char) : List Char → List (List Char)
  | [] => [[]]
  | c :: cs =>
    if c == sep then [] :: splitAt sep cs
    else
      match splitAt sep cs with
      | part :: parts => (c :: part) :: parts
      | [] => [[c]]

def isBlank (c : Char) : Bool := c == ' ' || c == '\t'

/-- Drops blanks at both ends. -/
def trim (cs : List Char) : List Char := ((cs.dropWhile isBlank).reverse.dropWhile isBlank).reverse

/-- Everything before the first `;`, which starts a comment (R90). -/
def dropComment (cs : List Char) : List Char := cs.takeWhile (fun c => c != ';')

/-- A digit of a base up to sixteen. -/
def digitOf (base : Nat) (c : Char) : Option Nat :=
  let n := c.toNat
  let v := if 48 ≤ n ∧ n ≤ 57 then n - 48
    else if 65 ≤ n ∧ n ≤ 70 then n - 55
    else if 97 ≤ n ∧ n ≤ 102 then n - 87
    else base
  if v < base then some v else none

def digitsFrom (base : Nat) : Nat → List Char → Option Nat
  | acc, [] => some acc
  | acc, c :: cs =>
    match digitOf base c with
    | some v => digitsFrom base (acc * base + v) cs
    | none => none

/-- A number of at least one digit that fits a byte. -/
def byteIn (base : Nat) (cs : List Char) : Option Byte :=
  if cs.isEmpty then none
  else
    match digitsFrom base 0 cs with
    | some n => if n < 256 then some (BitVec.ofNat 8 n) else none
    | none => none

/-- A byte literal: `0xNN` or decimal (R90). -/
def byteLit (cs : List Char) : Option Byte :=
  match cs with
  | '0' :: 'x' :: ds => byteIn 16 ds
  | _ => byteIn 10 cs

/-- A stream byte: hexadecimal without prefix (R90). -/
def streamByte (cs : List Char) : Option Byte := byteIn 16 cs

def allSome : List (Option Byte) → Option (List Byte)
  | [] => some []
  | none :: _ => none
  | some b :: rest => (allSome rest).map (fun bs => b :: bs)

/-- A stream operand: a bracketed list of hexadecimal bytes; `[]` is the empty stream (R90). -/
def streamLit (cs : List Char) : Option (List Byte) :=
  match cs with
  | '[' :: inner =>
    match inner.reverse with
    | ']' :: rev =>
      allSome (((splitAt ' ' rev.reverse).filter (fun w => !w.isEmpty)).map streamByte)
    | _ => none
  | _ => none

/-- DECODE's selector: `auto`, `rocker` or `relay` (R90); a byte literal is accepted too, so that every code can be
written (notes/assumptions/8.md). -/
def selectorLit (cs : List Char) : Option Byte :=
  if cs == ['a', 'u', 't', 'o'] then some 0
  else if cs == ['r', 'o', 'c', 'k', 'e', 'r'] then some 1
  else if cs == ['r', 'e', 'l', 'a', 'y'] then some 2
  else byteLit cs

/-- A mnemonic of R84. -/
def Opcode.letters : Opcode → List Char
  | .adddata => ['A', 'D', 'D', 'D', 'A', 'T', 'A']
  | .parse => ['P', 'A', 'R', 'S', 'E']
  | .clrbuf => ['C', 'L', 'R', 'B', 'U', 'F']
  | .bufsize => ['B', 'U', 'F', 'S', 'I', 'Z', 'E']
  | .crc8 => ['C', 'R', 'C', '8']
  | .crcvfy => ['C', 'R', 'C', 'V', 'F', 'Y']
  | .getbit => ['G', 'E', 'T', 'B', 'I', 'T']
  | .getbits => ['G', 'E', 'T', 'B', 'I', 'T', 'S']
  | .hinib => ['H', 'I', 'N', 'I', 'B']
  | .lonib => ['L', 'O', 'N', 'I', 'B']
  | .msb => ['M', 'S', 'B']
  | .rocker => ['R', 'O', 'C', 'K', 'E', 'R']
  | .action => ['A', 'C', 'T', 'I', 'O', 'N']
  | .cmdkind => ['C', 'M', 'D', 'K', 'I', 'N', 'D']
  | .dimtime => ['D', 'I', 'M', 'T', 'I', 'M', 'E']
  | .telegram => ['T', 'E', 'L', 'E', 'G', 'R', 'A', 'M']
  | .detect => ['D', 'E', 'T', 'E', 'C', 'T']
  | .decode => ['D', 'E', 'C', 'O', 'D', 'E']
  | .pktclass => ['P', 'K', 'T', 'C', 'L', 'A', 'S', 'S']

/-- The command of an opcode with its written operands, by format (R90). -/
def withOperands (o : Opcode) (ops : List (List Char)) : Option Instr :=
  match o.format, ops with
  | .N, [] => some (o.build 0 0 0 [])
  | .B, [a] => (byteLit a).map (fun a => o.build a 0 0 [])
  | .BP, [a, p] =>
    match byteLit a, byteLit p with
    | some a, some p => some (o.build a p 0 [])
    | _, _ => none
  | .BPQ, [a, p, q] =>
    match byteLit a, byteLit p, byteLit q with
    | some a, some p, some q => some (o.build a p q [])
    | _, _, _ => none
  | .S, [d] => (streamLit d).map (fun d => o.build 0 0 0 d)
  | .SA, [a, d] =>
    match (if o == .decode then selectorLit a else byteLit a), streamLit d with
    | some a, some d => some (o.build a 0 0 d)
    | _, _ => none
  | _, _ => none

/-- One line: nothing, one command, or the pseudo-instruction FEED (R90, R91). none is a line that is no command. -/
def readLine (line : List Char) : Option (List Instr) :=
  let text := trim (dropComment line)
  let word := text.takeWhile (fun c => !isBlank c)
  let behind := trim (text.dropWhile (fun c => !isBlank c))
  let ops := if behind.isEmpty then [] else (splitAt ',' behind).map trim
  if text.isEmpty then some []
  else if word == ['F', 'E', 'E', 'D'] then
    match ops with
    | [d] => (streamLit d).map feed
    | _ => none
  else
    match Opcode.all.find? (fun o => Opcode.letters o == word) with
    | some o => (withOperands o ops).map (fun i => [i])
    | none => none

/-- A program: one command a line (R90). -/
def readProgram (text : List Char) : Option (List Instr) :=
  (splitAt '\n' text).foldr
    (fun line rest =>
      match readLine line, rest with
      | some here, some later => some (here ++ later)
      | _, _ => none)
    (some [])

/-! ### Writing -/

/-- The digit of a value below sixteen. -/
def digit (n : Nat) : Char := Char.ofNat (if n < 10 then 48 + n else 55 + n)

/-- Two hexadecimal digits. -/
def hex2 (b : Byte) : List Char := [digit (b.toNat / 16), digit (b.toNat % 16)]

/-- `0xNN`. -/
def writeByte (b : Byte) : List Char := '0' :: 'x' :: hex2 b

/-- `[NN NN]`. -/
def writeStream (d : List Byte) : List Char :=
  '[' :: ((d.map hex2).intersperse [' ']).flatten ++ [']']

/-- `auto`, `rocker`, `relay`, or a byte literal for a code no word names. -/
def writeSelector (b : Byte) : List Char :=
  if b == 0 then ['a', 'u', 't', 'o']
  else if b == 1 then ['r', 'o', 'c', 'k', 'e', 'r']
  else if b == 2 then ['r', 'e', 'l', 'a', 'y']
  else writeByte b

/-- The operands of a command as text. -/
def writeOperands : Instr → List (List Char)
  | .adddata d => [writeStream d]
  | .parse => []
  | .clrbuf => []
  | .bufsize => []
  | .crc8 d => [writeStream d]
  | .crcvfy expected d => [writeByte expected, writeStream d]
  | .getbit byte pos => [writeByte byte, writeByte pos]
  | .getbits byte lo hi => [writeByte byte, writeByte lo, writeByte hi]
  | .hinib byte => [writeByte byte]
  | .lonib byte => [writeByte byte]
  | .msb byte => [writeByte byte]
  | .rocker code => [writeByte code]
  | .action status => [writeByte status]
  | .cmdkind nibble => [writeByte nibble]
  | .dimtime raw => [writeByte raw]
  | .telegram d => [writeStream d]
  | .detect d => [writeStream d]
  | .decode selector d => [writeSelector selector, writeStream d]
  | .pktclass d => [writeStream d]

/-- The line of a command: its mnemonic, then its operands separated by commas (R90). -/
def writeLine (i : Instr) : List Char :=
  Opcode.letters i.opcode ++
    match writeOperands i with
    | [] => []
    | ops => ' ' :: (ops.intersperse [',', ' ']).flatten

end Sys2Proof.Assembly
end

