-- ==== Sys2Proof/Tests/Slice0.lean ====
section
/-! SUPPORT. Tests: the well-formedness smoke, every command's word written out from R80 to R84, one step of each
command with results from spec 95_test_vectors.md, the refusals and the fault, the notation, the host's session, and a
witness for the hypotheses of each statement. -/

open Sys2Proof Sys2Proof.Machine Sys2Proof.Claims

namespace Sys2Proof.Tests

/-! Each test is elaborated in turn: many at once would each hold a thread while it waits for the kernel. -/
set_option Elab.async false

/-- The reset machine with bytes on its port. -/
def sent (bytes : List Byte) : State := { State.reset with port := bytes }

/-- The reset machine with a buffer and bytes on its port. -/
def holding (buf bytes : List Byte) : State := { State.reset with buf := buf, port := bytes }

/-- The next state of an outcome, in a form that can be compared. -/
def after (o : Out) : Option State :=
  match o with
  | .next s => some s
  | .fault _ => none
  | .refused _ => none

/-- The answer delivered by an outcome. -/
def answerOf (o : Out) : Option Answer := (after o).bind State.answer

/-- The buffer an outcome leaves. -/
def bufOf (o : Out) : Option (List Byte) := (after o).map State.buf

/-- The response delivered by an outcome. -/
def responseOf (o : Out) : Option Response :=
  match answerOf o with
  | some (.response r) => some r
  | _ => none

/-- Rocker packet D1 with its optional data (95_test_vectors.md). -/
def packetD1 : List Byte :=
  [0x55, 0x00, 0x07, 0x07, 0x01, 0x7A, 0xF6, 0x30, 0x01, 0x94, 0xE3, 0xB9, 0x30, 0x01, 0xFF, 0xFF, 0xFF, 0xFF, 0x2D,
    0x00, 0xEA]

/-- Switching packet D9: channel 5, on. -/
def packetD9 : List Byte := [0x55, 0x00, 0x08, 0x00, 0x01, 0x56, 0xD2, 0x11, 0x05, 0x01, 0x94, 0xE3, 0xB9, 0x00, 0x1E]

/-- Dimming packet D12: channel 3, level 50, five seconds. -/
def packetD12 : List Byte :=
  [0x55, 0x00, 0x0A, 0x00, 0x01, 0x80, 0xD2, 0x22, 0x03, 0x32, 0x05, 0x01, 0x94, 0xE3, 0xB9, 0x00, 0xE9]

/-- Status request packet D17. -/
def packetD17 : List Byte :=
  [0x55, 0x00, 0x09, 0x00, 0x01, 0x3D, 0xD2, 0x37, 0x02, 0x64, 0x01, 0x94, 0xE3, 0xB9, 0x00, 0xC4]

/-- Status response packet D20. -/
def packetD20 : List Byte :=
  [0x55, 0x00, 0x0A, 0x00, 0x01, 0x80, 0xD2, 0x4F, 0xFE, 0x65, 0x07, 0x01, 0x94, 0xE3, 0xB9, 0x00, 0x8F]

/-- The one-byte RESPONSE packet of the framer's vectors. -/
def packetResponse : List Byte := [0x55, 0x00, 0x01, 0x00, 0x02, 0x65, 0x00, 0x00]

/-! ### Well-formedness: the one check, with ill-formed terms it refuses -/

theorem test_wf_refuses_long_stream :
    (Instr.adddata (List.replicate (2 ^ 32) 0)).wf = false ∧
    (Instr.decode 0 (List.replicate (2 ^ 32) 0)).wf = false := by
  constructor <;> simp only [Instr.wf, Instr.stream?, streamFits, List.length_replicate] <;> decide

theorem test_wf_allows : (Instr.adddata []).wf = true ∧ (Instr.rocker 0xFF).wf = true := by decide

/-! ### Every command's word, written out from R80 to R84 (programs P1 to P4 and the format column of R84) -/

theorem test_decodes_adddata :
    decode ([0x01, 0x00, 0x00, 0x00, 0x00, 0x00, 0x00, 0x04, 0x55, 0x00, 0x07, 0x07] ++ [0xAA]) =
      .command (.adddata [0x55, 0x00, 0x07, 0x07]) [0xAA] := by decide

theorem test_decodes_parse : decode ([0x02, 0x00, 0x00, 0x00] ++ [0xAA]) = .command .parse [0xAA] := by decide

theorem test_decodes_clrbuf :
    decode ([0x03, 0x00, 0x00, 0x00] ++ [0xAA]) = .command (.clrbuf) [0xAA] := by decide

theorem test_decodes_bufsize :
    decode ([0x04, 0x00, 0x00, 0x00] ++ [0xAA]) = .command (.bufsize) [0xAA] := by decide

theorem test_decodes_crc8 :
    decode ([0x10, 0x00, 0x00, 0x00, 0x00, 0x00, 0x00, 0x01, 0x55] ++ [0xAA]) =
      .command (.crc8 [0x55]) [0xAA] := by decide

theorem test_decodes_crcvfy :
    decode ([0x11, 0x80, 0x00, 0x00, 0x00, 0x00, 0x00, 0x04, 0x00, 0x0A, 0x00, 0x01] ++ [0xAA]) =
      .command (.crcvfy 0x80 [0x00, 0x0A, 0x00, 0x01]) [0xAA] := by decide

theorem test_decodes_getbit :
    decode ([0x20, 0x30, 0x04, 0x00] ++ [0xAA]) = .command (.getbit 0x30 0x04) [0xAA] := by decide

theorem test_decodes_getbits :
    decode ([0x21, 0x30, 0x05, 0x06] ++ [0xAA]) = .command (.getbits 0x30 0x05 0x06) [0xAA] := by decide

theorem test_decodes_hinib :
    decode ([0x22, 0x22, 0x00, 0x00] ++ [0xAA]) = .command (.hinib 0x22) [0xAA] := by decide

theorem test_decodes_lonib :
    decode ([0x23, 0x25, 0x00, 0x00] ++ [0xAA]) = .command (.lonib 0x25) [0xAA] := by decide

theorem test_decodes_msb :
    decode ([0x24, 0x80, 0x00, 0x00] ++ [0xAA]) = .command (.msb 0x80) [0xAA] := by decide

theorem test_decodes_rocker :
    decode ([0x25, 0x01, 0x00, 0x00] ++ [0xAA]) = .command (.rocker 0x01) [0xAA] := by decide

theorem test_decodes_action :
    decode ([0x26, 0x30, 0x00, 0x00] ++ [0xAA]) = .command (.action 0x30) [0xAA] := by decide

theorem test_decodes_cmdkind :
    decode ([0x27, 0x02, 0x00, 0x00] ++ [0xAA]) = .command (.cmdkind 0x02) [0xAA] := by decide

theorem test_decodes_dimtime :
    decode ([0x28, 0x82, 0x00, 0x00] ++ [0xAA]) = .command (.dimtime 0x82) [0xAA] := by decide

theorem test_decodes_telegram :
    decode ([0x30, 0x00, 0x00, 0x00, 0x00, 0x00, 0x00, 0x02, 0x55, 0x00] ++ [0xAA]) =
      .command (.telegram [0x55, 0x00]) [0xAA] := by decide

theorem test_decodes_detect :
    decode ([0x31, 0x00, 0x00, 0x00, 0x00, 0x00, 0x00, 0x02, 0x55, 0x00] ++ [0xAA]) =
      .command (.detect [0x55, 0x00]) [0xAA] := by decide

theorem test_decodes_decode :
    decode ([0x32, 0x01, 0x00, 0x00, 0x00, 0x00, 0x00, 0x02, 0x55, 0x00] ++ [0xAA]) =
      .command (.decode 0x01 [0x55, 0x00]) [0xAA] := by decide

theorem test_decodes_pktclass :
    decode ([0x33, 0x00, 0x00, 0x00, 0x00, 0x00, 0x00, 0x08, 0x55, 0x00, 0x01, 0x00, 0x02, 0x65, 0x00, 0x00] ++ [0xAA]) =
      .command (.pktclass packetResponse) [0xAA] := by decide

/-- A length word with bytes in every place: 0x00000102 stream bytes are 258 (R44, R82). -/
theorem test_length_word_order :
    decode ([0x10, 0x00, 0x00, 0x00, 0x00, 0x00, 0x01, 0x02] ++ List.replicate 258 7 ++ [0xAA]) =
      .command (.crc8 (List.replicate 258 7)) [0xAA] := by decide +kernel

theorem test_table_word :
    decodeTableWord 32 0x21300506 = some (.getbits 0x30 0x05 0x06) ∧ decodeTableWord 32 0x01000000 = some (.adddata []) ∧
      decodeTableWord 32 0x05000000 = none ∧ decodeTableWord 32 0x10000001 = none := by decide +kernel

theorem test_withFetchWord_runs :
    responseOf (step (State.reset.withFetchWord 32 0x28820000)) = some (.seconds 180) := by decide +kernel

/-! ### One step of each command (95_test_vectors.md part 2) -/

theorem test_adddata_appends :
    after (exec (.adddata [0x01, 0x00]) (holding [0x55, 0x00] [])) =
      some { State.reset with buf := [0x55, 0x00, 0x01, 0x00], answer := some (.response .ack) } := by decide +kernel

theorem test_adddata_overflows :
    after (exec (.adddata [0x01, 0x02, 0x03, 0x04, 0x05]) { State.reset with config := { bufCap := some 4 } }) =
      some { State.reset with config := { bufCap := some 4 }, faulted := true
                              answer := some (.faulted (.bufferOverflow 0x01000000 5 0)) } := by decide +kernel

/-- Rows F1 to F13 of the framer's vectors. -/
theorem test_parse_vectors_search :
    parseBuffer [0x00, 0x11, 0x55, 0x00, 0x01, 0x00, 0x02, 0x65, 0x00, 0x00] =
      ([[0x55, 0x00, 0x01, 0x00, 0x02, 0x65, 0x00, 0x00]], []) ∧
    parseBuffer [0x00, 0x11, 0x22] =
      ([], [0x00, 0x11, 0x22]) ∧
    parseBuffer [0x01, 0x02, 0x03, 0x04, 0x05, 0x06] =
      ([], []) ∧
    parseBuffer [0x55, 0x00, 0x01, 0x00, 0x02, 0x65] =
      ([], [0x55, 0x00, 0x01, 0x00, 0x02, 0x65]) ∧
    parseBuffer [0x55, 0x00, 0x01, 0x00, 0x02, 0x66, 0x00, 0x00] =
      ([], []) ∧
    parseBuffer [0x55, 0x00, 0x01, 0x00, 0x02, 0x65, 0x00, 0x01] =
      ([], []) := by decide +kernel

/-- The later rows. -/
theorem test_parse_vectors_frames :
    parseBuffer [0x55, 0x00, 0x00, 0x00, 0x05, 0x1B, 0x00] =
      ([[0x55, 0x00, 0x00, 0x00, 0x05, 0x1B, 0x00]], []) ∧
    parseBuffer [0x55, 0x00, 0x00, 0x00, 0x05, 0x1B, 0x01] =
      ([], []) ∧
    parseBuffer [0x55, 0x55, 0x00, 0x01, 0x00, 0x02, 0x65, 0x00, 0x00] =
      ([[0x55, 0x00, 0x01, 0x00, 0x02, 0x65, 0x00, 0x00]], []) ∧
    parseBuffer [0x11, 0x22, 0x33, 0x44, 0x55, 0x00, 0x01] =
      ([], [0x55, 0x00, 0x01]) ∧
    parseBuffer [0x55, 0x00, 0x01, 0x00, 0x02, 0x65, 0x55, 0xAC, 0x55, 0x00, 0x02, 0x01, 0x04, 0xDF, 0x55, 0x55, 0x55, 0x05] =
      ([[0x55, 0x00, 0x01, 0x00, 0x02, 0x65, 0x55, 0xAC], [0x55, 0x00, 0x02, 0x01, 0x04, 0xDF, 0x55, 0x55, 0x55, 0x05]], []) := by decide +kernel

/-- R9: a result capacity the packets fit changes nothing; one they exceed leaves the same buffer. -/
theorem test_parse_result_capacity :
    responseOf (exec .parse { holding packetResponse [] with config := { bufCap := none, resultCap := some 1 } }) =
      some (.packets [packetResponse]) ∧
    bufOf (exec .parse { holding (packetResponse ++ [1]) [] with config := { bufCap := none, resultCap := some 0 } }) =
      some [1] := by decide +kernel

theorem test_clrbuf :
    after (exec .clrbuf { State.reset with buf := [0x55, 0x00, 0x07], refused := true }) =
      some { State.reset with refused := true, answer := some (.response .ack) } := by decide +kernel

theorem test_bufsize : responseOf (exec .bufsize (holding [0x55, 0x00, 0x01] [])) = some (.size 3) := by decide +kernel

theorem test_crc8_check_value : responseOf (exec (.crc8 [0x31, 0x32, 0x33, 0x34, 0x35, 0x36, 0x37, 0x38, 0x39]) State.reset) = some (.u8 0xF4) := by decide +kernel

theorem test_crc8_header : responseOf (exec (.crc8 [0x00, 0x07, 0x07, 0x01]) State.reset) = some (.u8 0x7A) := by decide +kernel

theorem test_crcvfy_true : responseOf (exec (.crcvfy 0x7A [0x00, 0x07, 0x07, 0x01]) State.reset) = some (.bool true) := by decide +kernel

theorem test_crcvfy_false : responseOf (exec (.crcvfy 0xAD [0x55]) State.reset) = some (.bool false) := by decide +kernel

/-- The single-byte table of the checksum's vectors, 00 to 0F. -/
theorem test_crc8_table :
    (List.range 16).map (fun n => crc8 [BitVec.ofNat 8 n]) =
      [0x00, 0x07, 0x0E, 0x09, 0x1C, 0x1B, 0x12, 0x15, 0x38, 0x3F, 0x36, 0x31, 0x24, 0x23, 0x2A, 0x2D] := by
  decide +kernel

theorem test_getbit : responseOf (exec (.getbit 0x20 5) State.reset) = some (.u8 1) := by decide +kernel

theorem test_getbit_refused :
    after (step (sent [0x20, 0x20, 0x08, 0x00])) =
      some { State.reset with refused := true, answer := some (.refused (.operandRange 0x20200800)) } := by
  decide +kernel

theorem test_getbits_order : responseOf (exec (.getbits 0x60 5 6) State.reset) = some (.u8 3) := by decide +kernel

theorem test_getbits_whole : responseOf (exec (.getbits 0xA5 0 7) State.reset) = some (.u8 0xA5) := by decide +kernel

theorem test_hinib : responseOf (exec (.hinib 0xF0) State.reset) = some (.u8 15) := by decide +kernel

theorem test_lonib : responseOf (exec (.lonib 0x25) State.reset) = some (.u8 5) := by decide +kernel

theorem test_msb_set : responseOf (exec (.msb 0x80) State.reset) = some (.bool true) := by decide +kernel

theorem test_msb_clear : responseOf (exec (.msb 0x7F) State.reset) = some (.bool false) := by decide +kernel

theorem test_rocker_up : responseOf (exec (.rocker 1) State.reset) = some (.rocker .up) := by decide +kernel

theorem test_rocker_three : responseOf (exec (.rocker 3) State.reset) = some (.rocker .rest) := by decide +kernel

theorem test_action_pressed : responseOf (exec (.action 0x20) State.reset) = some (.action .pressed) := by decide +kernel

theorem test_action_released : responseOf (exec (.action 0xDF) State.reset) = some (.action .released) := by decide +kernel

theorem test_cmdkind_dimming : responseOf (exec (.cmdkind 2) State.reset) = some (.commandKind (some .dimming)) := by decide +kernel

theorem test_cmdkind_whole_byte : responseOf (exec (.cmdkind 0x11) State.reset) = some (.commandKind none) := by decide +kernel

theorem test_dimtime_minutes : responseOf (exec (.dimtime 0x80) State.reset) = some (.seconds 60) := by decide +kernel

theorem test_dimtime_max : responseOf (exec (.dimtime 0xFF) State.reset) = some (.seconds 7680) := by decide +kernel

theorem test_telegram_optional :
    responseOf (exec (.telegram
      [0x55, 0x00, 0x07, 0x08, 0x01, 0xB9, 0xF6, 0x20, 0x01, 0x94, 0xE3, 0xB9, 0x20, 0x00, 0x12, 0x34, 0x56, 0x78, 0x00,
        0x03, 0x99, 0x04]) State.reset) =
      some (.telegram (some
        { rorg := 0xF6, senderId := 0x0194E3B9, destinationId := some 0x12345678, status := 0x20, subTelNum := some 0,
          dBm := 0, securityLevel := some 3, payload := [0x20] })) := by decide +kernel

theorem test_telegram_too_short :
    responseOf (exec (.telegram [0x55, 0x00, 0x05, 0x00, 0x01, 0xC7, 0xF6, 0x01, 0x02, 0x03, 0x04, 0xA1]) State.reset) =
      some (.telegram none) := by decide +kernel

theorem test_detect_rocker : responseOf (exec (.detect packetD1) State.reset) = some (.profile (some .twoRocker)) := by
  decide +kernel

/-- D21: command nibble 0 is no profile. -/
theorem test_detect_none :
    responseOf (exec (.detect
      [0x55, 0x00, 0x07, 0x00, 0x01, 0x11, 0xD2, 0x05, 0x01, 0x94, 0xE3, 0xB9, 0x00, 0xC5]) State.reset) =
      some (.profile none) := by decide +kernel

/-- D1: rocker A up, B none, energy bow, pressed, -45 dBm. -/
theorem test_decode_rocker :
    responseOf (exec (.decode 0 packetD1) State.reset) =
      some (.event (some (.twoRocker
        { rockerA := .up, rockerB := .rest, energyBow := true, secondAction := false, action := .pressed,
          senderId := 0x0194E3B9, dBm := -45 }))) := by decide +kernel

/-- D14: channel 31, unclamped level 200, 7680 seconds. -/
theorem test_decode_dimming :
    responseOf (exec (.decode 0
      [0x55, 0x00, 0x0A, 0x00, 0x01, 0x80, 0xD2, 0x2A, 0x1F, 0xC8, 0xFF, 0x01, 0x94, 0xE3, 0xB9, 0x00, 0x07])
      State.reset) =
      some (.event (some (.relayDimmer
        { channel := 31, command := .dimming, outputOn := true, outputLevel := 200, dimValue := some 200,
          dimTime := some 7680, senderId := 0x0194E3B9, dBm := -100 }))) := by decide +kernel

theorem test_pktclass_event :
    responseOf (exec (.pktclass [0x55, 0x00, 0x01, 0x00, 0x04, 0x77, 0x02, 0x0E]) State.reset) =
      some (.packetClass .event) := by decide +kernel

theorem test_pktclass_refused :
    answerOf (exec (.pktclass [0x55, 0x00, 0x00, 0x00, 0x05, 0x1B, 0x01]) State.reset) =
      some (.refused (.notAPacket 0x33000000 7)) := by decide +kernel

/-! ### The checks in front of a command, and their order (R233, R234) -/

theorem test_illegal_opcode :
    after (step (sent [0x05, 0x00, 0x00, 0x00, 0xAA])) =
      some { sent [0xAA] with refused := true, answer := some (.refused (.illegalOpcode 0x05000000)) } := by
  decide +kernel

theorem test_reserved_field_takes_the_stream :
    after (step (sent [0x10, 0x00, 0x00, 0x01, 0x00, 0x00, 0x00, 0x01, 0x55, 0xAA])) =
      some { sent [0xAA] with refused := true, answer := some (.refused (.reservedField 0x10000001)) } := by
  decide +kernel

theorem test_reserved_field_before_range :
    answerOf (step (sent [0x25, 0x04, 0x00, 0x01])) = some (.refused (.reservedField 0x25040001)) := by decide +kernel

/-- D29: the selector is checked before the packet. -/
theorem test_range_before_packet :
    answerOf (exec (.decode 3 []) State.reset) = some (.refused (.operandRange 0x32030000)) := by decide +kernel

theorem test_waits : after (step (sent [0x10, 0x00, 0x00, 0x00, 0x00, 0x00, 0x00, 0x01])) =
    some (sent [0x10, 0x00, 0x00, 0x00, 0x00, 0x00, 0x00, 0x01]) := by decide +kernel

/-! ### Response bytes and cause codes (R88, R89, R233) -/

theorem test_response_bytes :
    (Response.packets [packetResponse]).bytes = some ([0, 0, 0, 1] ++ packetResponse) ∧
    (Response.seconds 7680).bytes = some [0x1E, 0x00] ∧ (Response.rocker .down).bytes = some [2] ∧
    (Response.packetClass .event).bytes = some [4] ∧ (Response.size 258).bytes = some [0, 0, 1, 2] := by decide +kernel

theorem test_cause_codes :
    (Answer.refused (.notAPacket 0 0)).cause = some 0x04 ∧ (Answer.faulted (.bufferOverflow 0 0 0)).cause = some 0x80 := by
  decide

/-! ### The notation (R90, R91) -/

theorem test_read_getbits : Assembly.readLine "GETBITS 0x60, 5, 6 ; bits".toList = some [.getbits 0x60 5 6] := by
  decide +kernel

theorem test_read_feed :
    Assembly.readLine "FEED [55 00]".toList = some [.adddata [0x55, 0x00], .parse] ∧
    Assembly.readLine "DECODE relay, []".toList = some [.decode 2 []] ∧
    Assembly.readLine "CRCVFY 0xAC, [55]".toList = some [.crcvfy 0xAC [0x55]] := by decide +kernel

theorem test_write_line : Assembly.writeLine (.crcvfy 0xAC [0x55, 0x0A]) = "CRCVFY 0xAC, [55 0A]".toList := by
  decide +kernel

/-! ### The host's session and its block (R246 to R254; S10) -/

/-- S10: the delays of a lost connection and of the failed reconnects behind it, and no sixth attempt. -/
theorem test_backoff :
    (Session.initial.run ([.connect true, .opened, .transportClosed] ++
      (List.replicate 5 [SessionInput.timerFired, .openFailed]).flatten)).filterMap (fun r => r.session.timer) =
      [2000, 4000, 8000, 16000, 30000] := by decide

theorem test_session_replies :
    (Session.initial.step (.connect false)).reply = some .configurationError ∧
    (Session.initial.step (.send [1])).reply = some .notConnected ∧
    ((Session.initial.step (.connect true)).session.step .openFailed).reply = some .openError := by decide

/-- R246 to R248: of a chunk with a response, a type-5 and a radio packet, the host emits the first whole, nothing for the
second, and the telegram and the rocker event of the third. -/
theorem test_dispatch :
    (({ session := { phase := .connected, attempts := 0, timer := none }, block := State.reset } : Site).step
        (.chunk (packetResponse ++ [0x55, 0x00, 0x00, 0x00, 0x05, 0x1B, 0x00] ++ packetD1))).2 =
      [.packet packetResponse,
        .radioTelegram
          { rorg := 0xF6, senderId := 0x0194E3B9, destinationId := some 0xFFFFFFFF, status := 0x30, subTelNum := some 1,
            dBm := -45, securityLevel := some 0, payload := [0x30] },
        .profileEvent (.twoRocker
          { rockerA := .up, rockerB := .rest, energyBow := true, secondAction := false, action := .pressed,
            senderId := 0x0194E3B9, dBm := -45 })] := by decide +kernel

/-! ### Witnesses: states and operands that meet the hypotheses of each statement -/

/-- The telegram of packet D1. -/
def telegramD1 : Telegram :=
  { rorg := 0xF6, senderId := 0x0194E3B9, destinationId := some 0xFFFFFFFF, status := 0x30, subTelNum := some 1,
    dBm := -45, securityLevel := some 0, payload := [0x30] }

/-- A VLD telegram with the default signal strength and status 0, as in D7 to D24. -/
def telegramVld (payload : List Byte) : Telegram :=
  { rorg := 0xD2, senderId := 0x0194E3B9, destinationId := none, status := 0, subTelNum := none, dBm := -100,
    securityLevel := none, payload := payload }

/-- The telegram-bearing packet of 6 data bytes (D6): an empty payload. -/
def packetD6 : List Byte := [0x55, 0x00, 0x06, 0x00, 0x01, 0x7A, 0xF6, 0x01, 0x94, 0xE3, 0xB9, 0x20, 0xC4]

/-- Its telegram. -/
def telegramD6 : Telegram :=
  { rorg := 0xF6, senderId := 0x0194E3B9, destinationId := none, status := 0x20, subTelNum := none, dBm := -100,
    securityLevel := none, payload := [] }

/-- A radio packet of 5 data bytes: no telegram fits. -/
def packetFive : List Byte := [0x55, 0x00, 0x05, 0x00, 0x01, 0xC7, 0xF6, 0x01, 0x02, 0x03, 0x04, 0xA1]

theorem witness_EncodedCommandDecodesBack :
    (Instr.decode 0xFF [0x55]).WellFormed ∧ (Instr.getbits 0xFF 0xFF 0xFF).WellFormed ∧ Instr.parse.WellFormed := by
  decide

theorem witness_DecodedBytesAreTheEncoding :
    decode [0x32, 0xFF, 0x00, 0x00, 0x00, 0x00, 0x00, 0x01, 0x55, 0xAA] = .command (.decode 0xFF [0x55]) [0xAA] := by
  decide

theorem witness_StepRunsDecodedCommand : decode (sent [0x22, 0x5A, 0x00, 0x00, 0xAA]).port =
    .command (.hinib 0x5A) [0xAA] := by decide

theorem witness_ReservedOpcodeIsRefused :
    (∀ op ∈ ([0x00, 0x05, 0x0F, 0x12, 0x1F, 0x29, 0x2F, 0x34, 0xFF] : List Byte), ReservedOpcode op) ∧
    (∀ op ∈ ([0x01, 0x04, 0x10, 0x11, 0x20, 0x28, 0x30, 0x33] : List Byte), ¬ReservedOpcode op) ∧
    (sent [0x05, 0x00, 0x00, 0x00, 0xAA]).port = 0x05 :: 0x00 :: 0x00 :: 0x00 :: [0xAA] := by
  unfold ReservedOpcode
  decide

theorem witness_OpcodeTellsTheLength :
    HoldsCommand [0x02, 0x00, 0x00, 0x00, 0xAA] 0x02 0 0 0 [] [0xAA] ∧ ¬StreamOpcode 0x02 ∧
    HoldsCommand [0x05, 0x00, 0x00, 0x00] 0x05 0 0 0 [] [] ∧
    HoldsCommand [0x10, 0x00, 0x00, 0x00, 0x00, 0x00, 0x00, 0x01, 0x55, 0xAA] 0x10 0 0 0 [0x55] [0xAA] ∧
    HoldsCommand [0x33, 0x00, 0x00, 0x00, 0x00, 0x00, 0x00, 0x00] 0x33 0 0 0 [] [] ∧ StreamOpcode 0x33 := by
  refine ⟨.inl ⟨by unfold StreamOpcode; decide, rfl, rfl⟩, by unfold StreamOpcode; decide,
    .inl ⟨by unfold StreamOpcode; decide, rfl, rfl⟩,
    .inr ⟨by unfold StreamOpcode; decide, 0, 0, 0, 1, by unfold Counts; decide, rfl⟩,
    .inr ⟨by unfold StreamOpcode; decide, 0, 0, 0, 0, by unfold Counts; decide, rfl⟩, by unfold StreamOpcode; decide⟩

/-- One command for each outcome of R234, in order: reserved opcode; reserved field, with a range violation behind it;
range, with a bad packet behind it; no packet; overflow by one byte; none of them, at the range's edge and at the
capacity's edge. -/
theorem witness_ChecksAreMadeInOrder :
    ReservedOpcode 0x34 ∧
    (¬ReservedOpcode 0x25 ∧ BreaksReserved 0x25 4 0 1 ∧ BreaksRange 0x25 4 0 1) ∧
    (¬ReservedOpcode 0x32 ∧ ¬BreaksReserved 0x32 3 0 0 ∧ BreaksRange 0x32 3 0 0 ∧ PacketOpcode 0x32 ∧ ¬IsPacket []) ∧
    (¬BreaksReserved 0x32 2 0 0 ∧ ¬BreaksRange 0x32 2 0 0 ∧ PacketOpcode 0x32 ∧ ¬IsPacket []) ∧
    (¬BreaksReserved 0x01 0 0 0 ∧ ¬BreaksRange 0x01 0 0 0 ∧ ¬PacketOpcode 0x01 ∧
      ∃ c, (some 4 : Option Nat) = some c ∧ c < ([0x55] : List Byte).length + ([1, 2, 3, 4] : List Byte).length) ∧
    (¬ReservedOpcode 0x21 ∧ ¬BreaksReserved 0x21 0xFF 7 7 ∧ ¬BreaksRange 0x21 0xFF 7 7 ∧ ¬PacketOpcode 0x21) ∧
    ¬(4 < ([0x55] : List Byte).length + ([1, 2, 3] : List Byte).length) := by
  unfold ReservedOpcode BreaksReserved BreaksRange PacketOpcode IsPacket NoAOpcode
  refine ⟨?_, ?_, ?_, ?_, ⟨?_, ?_, ?_, 4, rfl, ?_⟩, ?_, ?_⟩ <;> decide +kernel

theorem witness_IncompleteCommandWaits :
    (sent [0x02, 0x00, 0x00]).port.length < 4 ∧ State.reset.port.length < 4 ∧ StreamOpcode 0x01 ∧
    ([0x00, 0x00, 0x00] : List Byte).length < 4 ∧
    ([0x00, 0x00, 0x00, 0x01] : List Byte).length < 4 + BE32 [0x00, 0x00, 0x00, 0x01] 0 := by
  unfold StreamOpcode
  decide

theorem witness_CommandsRunInIssueOrder :
    (∀ i ∈ [Instr.adddata [0x55], .parse, .bufsize], i.WellFormed) ∧
    (sent [0x01, 0, 0, 0, 0, 0, 0, 1, 0x55, 0x02, 0, 0, 0, 0x04, 0, 0, 0, 0xAA]).port =
      encodeAll [.adddata [0x55], .parse, .bufsize] ++ [0xAA] := by decide +kernel

theorem witness_LaterBytesAreHeld :
    decode (sent [0x02, 0, 0, 0]).port ≠ .incomplete ∧ ∃ t, step (sent [0x02, 0, 0, 0]) = .next t :=
  ⟨by decide, _, rfl⟩

theorem witness_FeedIsAdddataThenParse :
    ([0x55] : List Byte).length < 2 ^ 32 ∧
    (sent [0x01, 0, 0, 0, 0, 0, 0, 1, 0x55, 0x02, 0, 0, 0, 0xAA]).port =
      encode (.adddata [0x55]) ++ encode .parse ++ [0xAA] := by decide +kernel

/-- The ports of the six formats, with must-be-zero fields zero and nonzero; for the stream formats, with streams of 0
and 258 bytes. -/
theorem witness_Formats :
    (sent [0x02, 0, 0, 0]).port = 0x02 :: 0 :: 0 :: 0 :: [] ∧ (sent [0x02, 0, 0, 1]).port = 0x02 :: 0 :: 0 :: 1 :: [] ∧
    (sent [0x22, 9, 0, 0]).port = 0x22 :: 9 :: 0 :: 0 :: [] ∧ (sent [0x22, 9, 1, 0]).port = 0x22 :: 9 :: 1 :: 0 :: [] ∧
    (sent [0x20, 9, 7, 0]).port = 0x20 :: 9 :: 7 :: 0 :: [] ∧ (sent [0x20, 9, 7, 1]).port = 0x20 :: 9 :: 7 :: 1 :: [] ∧
    (sent [0x21, 9, 5, 6]).port = 0x21 :: 9 :: 5 :: 6 :: [] ∧
    Counts 0 0 0 0 [] ∧ Counts 0 0 1 2 (List.replicate 258 7) ∧
    (sent [0x10, 0, 0, 0, 0, 0, 0, 1, 7]).port = 0x10 :: 0 :: 0 :: 0 :: 0 :: 0 :: 0 :: 1 :: ([7] ++ []) ∧
    (sent [0x10, 1, 0, 0, 0, 0, 0, 1, 7]).port = 0x10 :: 1 :: 0 :: 0 :: 0 :: 0 :: 0 :: 1 :: ([7] ++ []) ∧
    (sent [0x11, 1, 0, 0, 0, 0, 0, 1, 7]).port = 0x11 :: 1 :: 0 :: 0 :: 0 :: 0 :: 0 :: 1 :: ([7] ++ []) ∧
    (sent [0x11, 1, 0, 1, 0, 0, 0, 1, 7]).port = 0x11 :: 1 :: 0 :: 1 :: 0 :: 0 :: 0 :: 1 :: ([7] ++ []) ∧
    Counts 0 0 0 1 [7] := by
  refine ⟨rfl, rfl, rfl, rfl, rfl, rfl, rfl, rfl, ?_, rfl, rfl, rfl, rfl, rfl⟩
  unfold Counts
  rw [List.length_replicate]
  decide

theorem witness_CrcvfyComparesTheChecksum :
    (0xAC : Byte).toNat = crcSum [0x55] ∧ (0xAD : Byte).toNat ≠ crcSum [0x55] ∧ (0 : Byte).toNat = crcSum [] := by
  decide +kernel

theorem witness_CrcIsLinear : ([0x55, 0x01] : List Byte).length = ([0xFF, 0x80] : List Byte).length := by decide

theorem witness_CrcDetectsSingleBitErrors : 0 < 8 ∧ 7 < 8 := by decide

theorem witness_GetbitReadsOneBit : (7 : Byte).toNat ≤ 7 ∧ (0 : Byte).toNat ≤ 7 ∧ 7 < (8 : Byte).toNat := by decide

theorem witness_GetbitsReadsARange :
    ((7 : Byte).toNat ≤ 7 ∧ (0 : Byte).toNat ≤ (7 : Byte).toNat) ∧ (3 : Byte).toNat ≤ (3 : Byte).toNat ∧
    7 < (8 : Byte).toNat ∧ (5 : Byte).toNat < (6 : Byte).toNat := by decide

theorem witness_RockerFollowsItsTable :
    (0 : Byte).toNat = 0 ∧ (1 : Byte).toNat = 1 ∧ (2 : Byte).toNat = 2 ∧ (3 : Byte).toNat = 3 ∧ 3 < (4 : Byte).toNat := by
  decide

theorem witness_ActionReadsBitFive :
    (0x20 : Byte).toNat / 32 % 2 = 1 ∧ (0xFF : Byte).toNat / 32 % 2 = 1 ∧ (0xDF : Byte).toNat / 32 % 2 = 0 := by decide

theorem witness_CmdkindFollowsItsTable :
    (1 : Byte).toNat = 1 ∧ (2 : Byte).toNat = 2 ∧ (3 : Byte).toNat = 3 ∧ (4 : Byte).toNat = 4 ∧ (0 : Byte).toNat = 0 ∧
    4 < (5 : Byte).toNat ∧ 4 < (0x11 : Byte).toNat := by decide

theorem witness_DimtimeConvertsToSeconds :
    (0 : Byte).toNat = 0 ∧ (1 ≤ (1 : Byte).toNat ∧ (1 : Byte).toNat ≤ 127) ∧
    (1 ≤ (127 : Byte).toNat ∧ (127 : Byte).toNat ≤ 127) ∧ 128 ≤ (128 : Byte).toNat := by decide

/-- Unbounded; a finite capacity filled exactly; and exceeded by one. -/
theorem witness_AdddataAppendsOrOverflows :
    (∀ c, State.reset.config.bufCap = some c → State.reset.buf.length + 4 ≤ c) ∧
    (∀ c, (some 4 : Option Nat) = some c → ([] : List Byte).length + ([1, 2, 3, 4] : List Byte).length ≤ c) ∧
    (some 4 : Option Nat) = some 4 ∧ 4 < ([] : List Byte).length + ([1, 2, 3, 4, 5] : List Byte).length := by
  refine ⟨?_, ?_, rfl, by decide⟩
  · simp [State.reset, Config.unbounded]
  · simp

/-- The loop on vector F1: one packet behind two bytes of noise, then the guard. -/
theorem parses_F1 : Parses 1 ([0x00, 0x11] ++ packetResponse) [packetResponse] [] := by
  have f : FirstSync ([0x00, 0x11] ++ packetResponse) 2 := ⟨by decide, by decide, by decide⟩
  exact .stepG (k := 2) (by decide) f (by decide) (by unfold HeaderOk; decide +kernel) (by decide +kernel)
    (by unfold BodyOk; decide +kernel) (.guard (by decide +kernel))

/-- The loop on vectors F3, F12, F7 and F5: no sync byte; a short tail; a bad header; a packet still arriving. -/
theorem parses_exits :
    Parses 0 [1, 2, 3, 4, 5, 6] [] [] ∧ Parses 0 [0x11, 0x22, 0x33, 0x44, 0x55, 0x00, 0x01] [] [0x55, 0x00, 0x01] ∧
    Parses 1 [0x55, 0x00, 0x01, 0x00, 0x02, 0x66, 0x00, 0x00] [] [] ∧
    Parses 0 [0x55, 0x00, 0x01, 0x00, 0x02, 0x65] [] [0x55, 0x00, 0x01, 0x00, 0x02, 0x65] ∧
    Parses 1 [0x55, 0x00, 0x01, 0x00, 0x02, 0x65, 0x00, 0x01] [] [] := by
  have f0 : ∀ b : List Byte, 0 < b.length → at' b 0 = 0x55 → FirstSync b 0 := fun b h1 h2 =>
    ⟨h1, h2, fun j h => absurd h (Nat.not_lt_zero j)⟩
  refine ⟨.stepA (by decide) (by decide +kernel), .stepC (k := 4) (by decide) ⟨by decide, by decide, by decide⟩ (by decide),
    .stepD (k := 0) (by decide) (f0 _ (by decide) (by decide)) (by decide) (by unfold HeaderOk; decide +kernel)
      (.stepA (by decide) (by decide +kernel)),
    .stepE (k := 0) (by decide) (f0 _ (by decide) (by decide)) (by decide) (by unfold HeaderOk; decide +kernel)
      (by decide +kernel),
    .stepF (k := 0) (by decide) (f0 _ (by decide) (by decide)) (by decide) (by unfold HeaderOk; decide +kernel)
      (by decide +kernel) (by unfold BodyOk; decide +kernel) (.stepA (by decide) (by decide +kernel))⟩

theorem witness_ParseRunsTheLoop :
    (holding ([0x00, 0x11] ++ packetResponse) []).config.resultCap = none ∧
    ∃ n out left, Parses n (holding ([0x00, 0x11] ++ packetResponse) []).buf out left := ⟨rfl, _, _, _, parses_F1⟩

theorem witness_BufsizeAnswersTheLength :
    ∃ t u, exec .parse (holding packetResponse []) = .next t ∧ exec .bufsize t = .next u := ⟨_, _, rfl, rfl⟩

theorem witness_ParseTwiceIsParseOnce : ∃ t, exec .parse (holding packetResponse []) = .next t := ⟨_, rfl⟩

/-- A PARSE that returns a packet and keeps a byte. -/
theorem witness_ParseReturnsOnlyPackets :
    ∃ t, exec .parse (holding (packetResponse ++ [0x55]) []) = .next t ∧
      t.answer = some (.response (.packets [packetResponse])) ∧ t.buf = [0x55] :=
  ⟨_, rfl, by decide +kernel, by decide +kernel⟩

theorem witness_ParseKeepsStreamOrder :
    ∃ t, exec .parse (holding (packetResponse ++ [0x55]) []) = .next t ∧
      t.answer = some (.response (.packets [packetResponse])) ∧ t.buf = [0x55] := witness_ParseReturnsOnlyPackets

/-- A pass that resynchronises, one that accepts the smallest packet, a bound equal to the length, and a result capacity
that the packets exceed by one and one that they fill. -/
theorem witness_ParsePassesAreBounded :
    parsePass [0x55, 0x00, 0x01, 0x00, 0x02, 0x66] = .resync [0x00, 0x01, 0x00, 0x02, 0x66] ∧
    parsePass [0x55, 0x00, 0x00, 0x00, 0x05, 0x1B, 0x00] = .packet [0x55, 0x00, 0x00, 0x00, 0x05, 0x1B, 0x00] [] ∧
    packetResponse.length ≤ 8 ∧ Parses 1 ([0x00, 0x11] ++ packetResponse) [packetResponse] [] ∧
    0 < [packetResponse].length ∧ [packetResponse].length ≤ 1 :=
  ⟨by decide +kernel, by decide +kernel, by decide, parses_F1, by decide, by decide⟩

/-- The smallest packet, one with optional data, and one whose data holds a sync byte. -/
theorem witness_FirstPacketIsReturnedWhole :
    State.reset.config.resultCap = none ∧ (∀ x ∈ ([0x00, 0x11] : List Byte), x ≠ 0x55) ∧
    IsPacket [0x55, 0x00, 0x00, 0x00, 0x05, 0x1B, 0x00] ∧
    IsPacket packetD1 ∧ IsPacket [0x55, 0x00, 0x01, 0x00, 0x02, 0x65, 0x55, 0xAC] := by
  unfold IsPacket
  decide +kernel

theorem witness_SplitFeedingReturnsTheSamePackets :
    State.reset.config = Config.unbounded ∧ ([[0x55, 0x00], [0x01]] : List (List Byte)) ≠ [] := by decide

theorem witness_PartialFrameYieldsOnePacketLater :
    State.reset.config = Config.unbounded ∧ State.reset.buf = [] ∧
    IsPacket ([0x55, 0x00, 0x01, 0x00, 0x02, 0x65, 0x00] ++ [0x00]) ∧ IsPacket ([] ++ packetD1) ∧
    ([0x00] : List Byte) ≠ [] := by
  unfold IsPacket
  decide +kernel

theorem witness_FalseHeaderStallsParse :
    6 ≤ (holding [0x55, 0x00, 0x01, 0x00, 0x02, 0x65, 0x00] []).buf.length ∧
    HeaderOk [0x55, 0x00, 0x01, 0x00, 0x02, 0x65, 0x00] ∧
    (holding [0x55, 0x00, 0x01, 0x00, 0x02, 0x65, 0x00] []).buf.length <
      totalSize [0x55, 0x00, 0x01, 0x00, 0x02, 0x65, 0x00] := by
  unfold HeaderOk
  decide +kernel

/-- The streams themselves stand in the statement; its one hypothesis is the instance. -/
theorem witness_ResyncCounterexamples : State.reset.config = Config.unbounded := rfl

theorem witness_PacketsAreSelfDelimiting :
    State.reset.config.resultCap = none ∧ ∀ p ∈ [packetResponse, packetD1], IsPacket p := by
  unfold IsPacket
  decide +kernel

theorem witness_TelegramViewsTheDataRegion :
    ¬IsPacket [0x55, 0x00, 0x01, 0x00, 0x02, 0x65, 0x00, 0x01] ∧ (IsPacket packetD6 ∧ HasTelegram packetD6) ∧
    (IsPacket packetFive ∧ ¬HasTelegram packetFive) ∧ (IsPacket packetResponse ∧ ¬HasTelegram packetResponse) := by
  unfold IsPacket HasTelegram
  decide +kernel

theorem witness_DetectFollowsTheRorg :
    IsPacket packetD1 ∧ HasTelegram packetD1 ∧ IsTelegramOf packetD1 telegramD1 ∧ profileOf telegramD1 = some .twoRocker ∧
    profileOf (telegramVld [0x10]) = some .relayDimmer ∧ profileOf (telegramVld [0x4F]) = some .relayDimmer ∧
    profileOf (telegramVld [0x50]) = none ∧ profileOf (telegramVld [0x0F]) = none := by
  unfold IsPacket HasTelegram IsTelegramOf
  decide +kernel

/-- Each case of DECODE: a selector out of range; no packet; no telegram; no profile; an empty payload; the rocker by
detection and by selector; the relay by detection, and with an unknown nibble by selector. -/
theorem witness_DecodeChoosesTheProfile :
    2 < (3 : Byte).toNat ∧ ((2 : Byte).toNat ≤ 2 ∧ ¬IsPacket []) ∧ (IsPacket packetFive ∧ ¬HasTelegram packetFive) ∧
    (IsPacket packetD6 ∧ HasTelegram packetD6 ∧ IsTelegramOf packetD6 telegramD6 ∧ telegramD6.payload = []) ∧
    chosenProfile 0 (telegramVld [0x50]) = none ∧ chosenProfile 0 telegramD1 = some .twoRocker ∧
    chosenProfile 1 (telegramVld [0x50]) = some .twoRocker ∧ chosenProfile 0 (telegramVld [0x10]) = some .relayDimmer ∧
    (chosenProfile 2 (telegramVld [0x50]) = some .relayDimmer ∧ 4 < at' (telegramVld [0x50]).payload 0 / 16) ∧
    (IsPacket packetD12 ∧ HasTelegram packetD12 ∧ IsTelegramOf packetD12 (telegramVld [0x22, 0x03, 0x32, 0x05])) := by
  unfold IsPacket HasTelegram IsTelegramOf
  refine ⟨?_, ?_, ?_, ?_, ?_, ?_, ?_, ?_, ?_, ?_⟩ <;> decide +kernel

theorem witness_RockerEventFields :
    (0 : Byte).toNat ≤ 2 ∧ IsPacket packetD1 ∧ HasTelegram packetD1 ∧ IsTelegramOf packetD1 telegramD1 ∧
    chosenProfile 0 telegramD1 = some .twoRocker ∧ telegramD1.payload ≠ [] := by
  unfold IsPacket HasTelegram IsTelegramOf
  decide +kernel

/-- Switching with one byte, with two (D9) and with three (D11). -/
theorem witness_RelaySwitchingEvent :
    RelayInput 0 packetD9 (telegramVld [0x11, 0x05]) 1 ∧
    RelayInput 0 [0x55, 0x00, 0x07, 0x00, 0x01, 0x11, 0xD2, 0x10, 0x01, 0x94, 0xE3, 0xB9, 0x00, 0xD6]
      (telegramVld [0x10]) 1 ∧
    RelayInput 2 [0x55, 0x00, 0x09, 0x00, 0x01, 0x3D, 0xD2, 0x13, 0x05, 0x02, 0x01, 0x94, 0xE3, 0xB9, 0x00, 0x4E]
      (telegramVld [0x13, 0x05, 0x02]) 1 := by
  unfold RelayInput IsPacket HasTelegram IsTelegramOf
  refine ⟨?_, ?_, ?_⟩ <;> decide +kernel

/-- Dimming with one byte (D13), three (its body CRC by R100) and four (D12). -/
theorem witness_RelayDimmingEvent :
    RelayInput 0 packetD12 (telegramVld [0x22, 0x03, 0x32, 0x05]) 2 ∧
    RelayInput 0 [0x55, 0x00, 0x07, 0x00, 0x01, 0x11, 0xD2, 0x2A, 0x01, 0x94, 0xE3, 0xB9, 0x00, 0x6E]
      (telegramVld [0x2A]) 2 ∧
    RelayInput 0 [0x55, 0x00, 0x09, 0x00, 0x01, 0x3D, 0xD2, 0x22, 0x03, 0x32, 0x01, 0x94, 0xE3, 0xB9, 0x00, 0x6D]
      (telegramVld [0x22, 0x03, 0x32]) 2 := by
  unfold RelayInput IsPacket HasTelegram IsTelegramOf
  refine ⟨?_, ?_, ?_⟩ <;> decide +kernel

theorem witness_RelayStatusRequestEvent :
    RelayInput 0 packetD17 (telegramVld [0x37, 0x02, 0x64]) 3 := by
  unfold RelayInput IsPacket HasTelegram IsTelegramOf
  decide +kernel

/-- Status response with two bytes (D18), three (D19) and four (D20). -/
theorem witness_RelayStatusResponseEvent :
    RelayInput 0 packetD20 (telegramVld [0x4F, 0xFE, 0x65, 0x07]) 4 ∧
    RelayInput 0 [0x55, 0x00, 0x08, 0x00, 0x01, 0x56, 0xD2, 0x40, 0x01, 0x01, 0x94, 0xE3, 0xB9, 0x00, 0xF3]
      (telegramVld [0x40, 0x01]) 4 ∧
    RelayInput 0 [0x55, 0x00, 0x09, 0x00, 0x01, 0x3D, 0xD2, 0x41, 0x00, 0x64, 0x01, 0x94, 0xE3, 0xB9, 0x00, 0x92]
      (telegramVld [0x41, 0x00, 0x64]) 4 := by
  unfold RelayInput IsPacket HasTelegram IsTelegramOf
  refine ⟨?_, ?_, ?_⟩ <;> decide +kernel

theorem witness_PktclassReadsThePacketType :
    ¬IsPacket [0x55, 0x00, 0x00, 0x00, 0x05, 0x1B, 0x01] ∧ (IsPacket packetD1 ∧ at' packetD1 4 = 1) ∧
    (IsPacket packetResponse ∧ at' packetResponse 4 = 2) ∧ IsPacket [0x55, 0x00, 0x01, 0x00, 0x04, 0x77, 0x02, 0x0E] ∧
    IsPacket [0x55, 0x00, 0x00, 0x00, 0x05, 0x1B, 0x00] := by
  unfold IsPacket
  decide +kernel

/-- A state off reset that meets the invariant: finite capacities, the buffer full, both marks set, a fault just
answered. -/
theorem witness_StepKeepsInv :
    ({ buf := [1, 2, 3, 4], faulted := true, refused := true, config := { bufCap := some 4, resultCap := some 0 },
       port := [0x02, 0, 0, 0],
       answer := some (.faulted (.bufferOverflow 0x01000000 1 4)) } : State).Inv ∧
    ∃ t, step (sent [0x02, 0, 0, 0]) = .next t := by
  refine ⟨⟨?_, ?_, ?_, ?_, ?_, ?_⟩, _, rfl⟩ <;> simp

theorem witness_MarksAreSticky :
    decode (sent [0x20, 0x20, 0x08, 0x00]).port ≠ .incomplete ∧ ∃ t, step (sent [0x20, 0x20, 0x08, 0x00]) = .next t :=
  ⟨by decide, _, rfl⟩

theorem witness_OnlyFramerCommandsWriteTheBuffer :
    ∃ t, exec .clrbuf (holding [0x55] []) = .next t ∧ t.buf ≠ (holding [0x55] []).buf := ⟨_, rfl, by decide⟩

theorem witness_StatelessCommandsSeeOnlyTheirOperands :
    (∀ d, Instr.hinib 0x5A ≠ .adddata d) ∧ Instr.hinib 0x5A ≠ .parse ∧ Instr.hinib 0x5A ≠ .clrbuf ∧
    Instr.hinib 0x5A ≠ .bufsize ∧
    ∃ t t', exec (.hinib 0x5A) State.reset = .next t ∧ exec (.hinib 0x5A) (holding [0x55] []) = .next t' :=
  ⟨fun _ => by simp, by decide, by decide, by decide, _, _, rfl, rfl⟩

theorem witness_ClrbufRestoresTheResetState :
    (holding [0x55] []).faulted = false ∧ (holding [0x55] []).refused = false := ⟨rfl, rfl⟩

/-- A connected session; the first and the last failed reconnect; a failed explicit connect; a session not connected. -/
theorem witness_HostBacksOffAndClears :
    SessionSound { phase := .connected, attempts := 0, timer := none } ∧
    SessionSound { phase := .connecting false, attempts := 1, timer := none } ∧
    SessionSound { phase := .connecting false, attempts := 4, timer := none } ∧
    SessionSound { phase := .connecting false, attempts := 5, timer := none } ∧
    SessionSound { phase := .connecting true, attempts := 6, timer := none } ∧
    SessionSound { phase := .reconnecting, attempts := 1, timer := some 2000 } := by
  unfold SessionSound
  decide

theorem witness_HostDispatchesEveryPacketInOrder :
    ({ session := { phase := .connected, attempts := 0, timer := none }, block := State.reset } : Site).session.phase =
      .connected := rfl

end Sys2Proof.Tests
end

section
/-! SUPPORT. `step` said once, one equation per verdict of the decoder (R14, R49, R85, R87), and the statement of
00_scope.md about it. -/

namespace Sys2Proof.Machine

section

variable {s : State} {cw : Word32} {i : Instr} {rest : List Byte}

theorem step_of_incomplete (h : decode s.port = .incomplete) : step s = .next s := by
  rw [step, h, awaitCommand_eq]

theorem step_of_illegalOpcode (h : decode s.port = .illegalOpcode cw rest) :
    step s = refuse (.illegalOpcode cw) { s with port := rest } := by
  rw [step, h]
  rfl

theorem step_of_reservedField (h : decode s.port = .reservedField cw rest) :
    step s = refuse (.reservedField cw) { s with port := rest } := by
  rw [step, h]
  rfl

theorem step_of_command (h : decode s.port = .command i rest) : step s = exec i { s with port := rest } := by
  rw [step, h]
  rfl

end

/-- Settles O3: the command verdict of the decoder is the branch of `step` that runs the command (R14, R49). -/
theorem stepRunsDecodedCommand : Obligations.StepRunsDecodedCommand := by
  intro s i rest h
  exact step_of_command h

end Sys2Proof.Machine
end

section
/-! SUPPORT. What PARSE's loop returns and leaves (R154, R158), and the bounds of what the decoder answers (R75, R182,
R197 to R201). -/

namespace Sys2Proof.Machine

/-! ### PARSE's loop -/

/-- What a pass leaves of the working copy. -/
def Pass.left : Pass → List Byte
  | .stop b => b
  | .resync b => b
  | .packet _ b => b

theorem passAligned_left_suffix (b : List Byte) : (passAligned b).left <:+ b := by
  rcases passAligned_cases b with ⟨-, h⟩ | ⟨_, -, -, h⟩ | ⟨_, -, -, -, h⟩ | ⟨_, -, -, -, -, h⟩ | ⟨_, -, -, -, -, h⟩ <;>
    rw [h]
  case inl | inr.inr.inl => exact List.suffix_refl b
  all_goals exact List.drop_suffix _ b

theorem parsePass_left_suffix (b : List Byte) : (parsePass b).left <:+ b := by
  unfold parsePass
  split
  · exact List.suffix_refl b
  · exact (passAligned_left_suffix (toSync b)).trans (toSync_suffix b)

/-- PARSE only drops bytes from the front of the buffer. -/
theorem parseBuffer_left_suffix (b : List Byte) : (parseBuffer b).2 <:+ b := by
  induction b using parse_induction with
  | pass b resync packet =>
    have hleft := parsePass_left_suffix b
    cases hp : parsePass b with
    | stop left => rw [parseBuffer_of_stop hp]; rwa [hp] at hleft
    | resync left => rw [parseBuffer_of_resync hp]; rw [hp] at hleft; exact (resync left hp).trans hleft
    | packet p left => rw [parseBuffer_of_packet hp]; rw [hp] at hleft; exact (packet p left hp).trans hleft

/-- The bytes a valid header counts off, with their body CRC right, are an accepted packet. -/
theorem accepted_take {b : List Byte} {h : Header} (hb : headerOf b = some h) (hv : h.valid = true)
    (hl : h.totalSize ≤ b.length) (hc : bodyValid h b = true) : accepted (b.take h.totalSize) = true := by
  have hlen : (b.take h.totalSize).length = h.totalSize := List.length_take_of_le hl
  have hsplit : b.take h.totalSize ++ b.drop h.totalSize = b := List.take_append_drop _ b
  have hhead : headerOf (b.take h.totalSize) = some h := by
    have hsome : (headerOf (b.take h.totalSize)).isSome = true := by
      rw [headerOf_isSome, hlen, Header.totalSize_eq]
      exact decide_eq_true (by omega)
    obtain ⟨g, hg⟩ := Option.isSome_iff_exists.mp hsome
    rw [hg, ← headerOf_append (b.drop h.totalSize) hg, hsplit, hb]
  have hbody : bodyValid h (b.take h.totalSize) = true := by
    rw [← bodyValid_append (b.drop h.totalSize) hlen.ge, hsplit, hc]
  exact (accepted_iff _).mpr ⟨h, hhead, hv, hlen, hbody⟩

theorem parsePass_packet_accepted {b p left : List Byte} (h : parsePass b = .packet p left) : accepted p = true := by
  unfold parsePass at h
  split at h
  · cases h
  · rcases passAligned_cases (toSync b) with ⟨-, e⟩ | ⟨_, -, -, e⟩ | ⟨_, -, -, -, e⟩ | ⟨_, -, -, -, -, e⟩ |
      ⟨g, hg, hv, hl, hc, e⟩ <;> rw [e] at h <;> cases h
    exact accepted_take hg hv hl hc

/-- Everything PARSE frames is an accepted packet (R158). -/
theorem parseBuffer_accepted (b : List Byte) : ∀ p ∈ (parseBuffer b).1, accepted p = true := by
  induction b using parse_induction with
  | pass b resync packet =>
    cases hp : parsePass b with
    | stop left => simp [parseBuffer_of_stop hp]
    | resync left => rw [parseBuffer_of_resync hp]; exact resync left hp
    | packet p left =>
      rw [parseBuffer_of_packet hp]
      exact List.forall_mem_cons.mpr ⟨parsePass_packet_accepted hp, packet p left hp⟩

/-! ### Bounds of the decoder's values -/

/-- The dim time's largest value is that of byte 255 (R75). -/
theorem dimTimeOf_le (r : Byte) : (dimTimeOf r).toNat ≤ 7680 := by
  have hr := r.isLt
  rw [dimTimeOf, BitVec.toNat_ofNat]
  refine (Nat.mod_le _ _).trans ?_
  split <;> omega

theorem Telegram.withOptional_dBm (t : Telegram) (o : List Byte) :
    -255 ≤ (t.withOptional o).dBm ∧ (t.withOptional o).dBm ≤ 0 := by
  unfold Telegram.withOptional
  split
  next o5 _ _ =>
    have := o5.isLt
    dsimp only
    omega
  · exact (by decide : -255 ≤ defaultDbm ∧ defaultDbm ≤ 0)

theorem telegramIn_dBm {d o : List Byte} {t : Telegram} (h : telegramIn d o = some t) : -255 ≤ t.dBm ∧ t.dBm ≤ 0 := by
  unfold telegramIn at h
  split at h
  · cases h
  · split at h
    · injection h with h
      exact h ▸ Telegram.withOptional_dBm _ o
    · cases h

/-- The signal strength of a telegram is within -255..0 (R182). -/
theorem telegramOf_dBm {b : List Byte} {t : Telegram} (h : telegramOf b = some t) : -255 ≤ t.dBm ∧ t.dBm ≤ 0 := by
  unfold telegramOf at h
  split at h
  · split at h
    · exact telegramIn_dBm h
    · cases h
  · cases h

/-! ### Relay events -/

theorem relayBase_channel_le (kind : CommandKind) (p0 : Byte) (tail : List Byte) (t : Telegram) :
    (relayBase kind p0 tail t).channel.toNat ≤ 31 := by
  cases tail with
  | nil => exact (BitVec.toNat_and p0 0x0F).trans_le (Nat.and_le_right.trans (by decide))
  | cons p1 _ => exact (BitVec.toNat_and p1 channelMask).trans_le Nat.and_le_right

/-- No kind's rule writes the channel, the kind or the signal strength. -/
theorem applyKind_frame (kind : CommandKind) (tail : List Byte) (ev : RelayEvent) :
    (applyKind kind tail ev).channel = ev.channel ∧ (applyKind kind tail ev).command = ev.command ∧
      (applyKind kind tail ev).dBm = ev.dBm := by
  cases kind with
  | switching => exact ⟨rfl, rfl, rfl⟩
  | dimming =>
    match tail with
    | [] | [_] | [_, _] | _ :: _ :: _ :: _ => exact ⟨rfl, rfl, rfl⟩
  | statusRequest => exact ⟨rfl, rfl, rfl⟩
  | statusResponse =>
    match tail with
    | [] | [_] | _ :: _ :: _ => exact ⟨rfl, rfl, rfl⟩

/-- Only dimming writes a dim field (R198 to R201). -/
theorem applyKind_dim_of_ne {kind : CommandKind} (tail : List Byte) (ev : RelayEvent) (h : kind ≠ .dimming) :
    (applyKind kind tail ev).dimValue = ev.dimValue ∧ (applyKind kind tail ev).dimTime = ev.dimTime := by
  cases kind with
  | switching => exact ⟨rfl, rfl⟩
  | dimming => exact absurd rfl h
  | statusRequest => exact ⟨rfl, rfl⟩
  | statusResponse =>
    match tail with
    | [] | [_] | _ :: _ :: _ => exact ⟨rfl, rfl⟩

theorem applyDimming_dimTime_le {tail : List Byte} {ev : RelayEvent} (hev : ev.dimTime = none) {t : Word16}
    (ht : (applyDimming tail ev).dimTime = some t) : t.toNat ≤ 7680 := by
  unfold applyDimming at ht
  split at ht
  · injection ht with ht
    exact ht ▸ dimTimeOf_le _
  all_goals rw [hev] at ht; cases ht

/-- A relay event is sound whatever its payload. -/
theorem decodeRelay_sound {p0 : Byte} {tail : List Byte} {t : Telegram} {e : RelayEvent}
    (hd : -255 ≤ t.dBm ∧ t.dBm ≤ 0) (h : decodeRelay p0 tail t = some e) :
    (Response.event (some (.relayDimmer e))).Sound := by
  obtain ⟨kind, -, rfl⟩ := Option.map_eq_some_iff.mp h
  obtain ⟨hchannel, hcommand, hdBm⟩ := applyKind_frame kind tail (relayBase kind p0 tail t)
  have hkind : (relayBase kind p0 tail t).command = kind := rfl
  rw [hkind] at hcommand
  refine ⟨hchannel ▸ relayBase_channel_le kind p0 tail t, hdBm ▸ hd.1, hdBm ▸ hd.2, ?_, ?_, ?_⟩
  · rw [hcommand]
    rintro rfl
    rfl
  · rw [hcommand]
    exact applyKind_dim_of_ne tail _
  · by_cases hk : kind = .dimming
    · subst hk
      exact fun _ => applyDimming_dimTime_le rfl
    · rw [(applyKind_dim_of_ne tail _ hk).2]
      nofun

/-- Every event DECODE answers is sound (R193). -/
theorem decodeTelegram_sound (selector : Byte) {t : Telegram} (hd : -255 ≤ t.dBm ∧ t.dBm ≤ 0) :
    (Response.event (decodeTelegram selector t)).Sound := by
  unfold decodeTelegram
  split
  · exact hd
  next p0 tail _ _ =>
    cases h : decodeRelay p0 tail t with
    | none => trivial
    | some e => exact decodeRelay_sound hd h
  · trivial
  · trivial

theorem telegramOf_sound (d : List Byte) : (Response.telegram (telegramOf d)).Sound := by
  cases h : telegramOf d with
  | none => trivial
  | some t => exact telegramOf_dBm h

theorem decodeEvent_sound (selector : Byte) (d : List Byte) :
    (Response.event ((telegramOf d).bind (decodeTelegram selector))).Sound := by
  cases h : telegramOf d with
  | none => trivial
  | some t => exact decodeTelegram_sound selector (telegramOf_dBm h)

end Sys2Proof.Machine
end

section
/-! SUPPORT. The invariant `State.Inv`, one lemma per state operation and per end of a command, and the statement of
10_state.md that every step keeps it. -/

namespace Sys2Proof.Machine

/-- A PARSE response holds no more packets than a finite result capacity (notes/assumptions/4.md). -/
def Response.Fits (cap : Option Nat) : Response → Prop
  | .packets ps => ∀ c, cap = some c → ps.length ≤ c
  | _ => True

section

variable {s : State}

/-! ### The invariant under each state operation -/

theorem State.Inv.setPort (h : s.Inv) (p : List Byte) : (s.setPort p).Inv :=
  ⟨h.bufFits, h.resultFits, h.refusalMarked, h.faultMarked, h.faultNeedsCapacity, h.responseSound⟩

theorem State.Inv.setBuf (h : s.Inv) {b : List Byte} (hb : ∀ c, s.config.bufCap = some c → b.length ≤ c) :
    (s.setBuf b).Inv :=
  ⟨hb, h.resultFits, h.refusalMarked, h.faultMarked, h.faultNeedsCapacity, h.responseSound⟩

theorem State.Inv.responded (h : s.Inv) {r : Response} (sound : r.Sound) (fits : r.Fits s.config.resultCap) :
    (s.setAnswer (.response r)).Inv where
  bufFits := h.bufFits
  resultFits c hc ps hps := by
    cases hps
    exact fits c hc
  refusalMarked := nofun
  faultMarked := nofun
  faultNeedsCapacity := h.faultNeedsCapacity
  responseSound _ hr := by
    cases hr
    exact sound

theorem State.Inv.refused (h : s.Inv) (r : RefusalReport) : (s.markRefused.setAnswer (.refused r)).Inv where
  bufFits := h.bufFits
  resultFits := nofun
  refusalMarked _ _ := rfl
  faultMarked := nofun
  faultNeedsCapacity := h.faultNeedsCapacity
  responseSound := nofun

theorem State.Inv.faulted (h : s.Inv) (f : FaultReport) (hcap : s.config.bufCap ≠ none) :
    (s.markFaulted.setAnswer (.faulted f)).Inv where
  bufFits := h.bufFits
  resultFits := nofun
  refusalMarked := nofun
  faultMarked _ _ := rfl
  faultNeedsCapacity _ := hcap
  responseSound := nofun

/-! ### The invariant at each end of a command -/

/-- Where the outcome is a next state, it meets the invariant. -/
def LeavesInv (o : Out) : Prop := ∀ t, o = .next t → t.Inv

theorem leavesInv_next {t : State} (h : t.Inv) : LeavesInv (.next t) := by
  rintro _ ⟨⟩
  exact h

theorem leavesInv_respond (h : s.Inv) {r : Response} (sound : r.Sound) (fits : r.Fits s.config.resultCap) :
    LeavesInv (respond r s) := leavesInv_next (h.responded sound fits)

theorem leavesInv_refuse (h : s.Inv) (r : RefusalReport) : LeavesInv (refuse r s) := leavesInv_next (h.refused r)

theorem leavesInv_checkRange (h : s.Inv) {i : Instr} {k : Out} (hk : LeavesInv k) : LeavesInv (checkRange i s k) := by
  cases hr : operandsInRange i with
  | true => rwa [checkRange_of_inRange s k hr]
  | false => rw [checkRange_of_outOfRange s k hr]; exact leavesInv_refuse h _

theorem leavesInv_checkPacket (h : s.Inv) {i : Instr} {d : List Byte} {k : Out} (hk : LeavesInv k) :
    LeavesInv (checkPacket i d s k) := by
  cases ha : accepted d with
  | true => rwa [checkPacket_of_accepted i s k ha]
  | false => rw [checkPacket_of_not_accepted i s k ha]; exact leavesInv_refuse h _

/-! ### The framer's commands -/

theorem fitsCapacity_iff (cap : Option Nat) (n : Nat) : fitsCapacity cap n = true ↔ ∀ c, cap = some c → n ≤ c := by
  cases cap <;> simp [fitsCapacity]

theorem leavesInv_execAdddata (h : s.Inv) (d : List Byte) : LeavesInv (execAdddata d s) := by
  unfold execAdddata
  split
  next hfits =>
    have hlen := (fitsCapacity_iff _ _).mp hfits
    exact leavesInv_respond (h.setBuf fun c hc => List.length_append.trans_le (hlen c hc)) trivial trivial
  next hover =>
    exact leavesInv_next (h.faulted _ fun hnone => hover (by rw [hnone]; rfl))

theorem leavesInv_execParse (h : s.Inv) : LeavesInv (execParse s) := by
  refine leavesInv_respond (h.setBuf fun c hc => ?_) (fun p hp => ?_) (fun c hc => ?_)
  · exact (parseBuffer_left_suffix s.buf).length_le.trans (h.bufFits c hc)
  · exact parseBuffer_accepted s.buf p ((delivered_sublist _ _ _).subset hp)
  · have hcap : s.config.resultCap = some c := hc
    rw [hcap]
    exact delivered_length_le c _ _

theorem leavesInv_execClrbuf (h : s.Inv) : LeavesInv (execClrbuf s) :=
  leavesInv_respond (h.setBuf (b := []) fun c _ => Nat.zero_le c) trivial trivial

/-! ### Every command and every step -/

theorem leavesInv_exec (h : s.Inv) (i : Instr) : LeavesInv (exec i s) := by
  cases i with
  | adddata d => exact leavesInv_execAdddata h d
  | parse => exact leavesInv_execParse h
  | clrbuf => exact leavesInv_execClrbuf h
  | getbit => exact leavesInv_checkRange h (leavesInv_respond h trivial trivial)
  | getbits => exact leavesInv_checkRange h (leavesInv_respond h trivial trivial)
  | rocker => exact leavesInv_checkRange h (leavesInv_respond h trivial trivial)
  | dimtime raw => exact leavesInv_respond h (dimTimeOf_le raw) trivial
  | telegram d => exact leavesInv_checkPacket h (leavesInv_respond h (telegramOf_sound d) trivial)
  | detect => exact leavesInv_checkPacket h (leavesInv_respond h trivial trivial)
  | decode c d =>
    exact leavesInv_checkRange h (leavesInv_checkPacket h (leavesInv_respond h (decodeEvent_sound c d) trivial))
  | pktclass => exact leavesInv_checkPacket h (leavesInv_respond h trivial trivial)
  | _ => exact leavesInv_respond h trivial trivial

theorem leavesInv_step (h : s.Inv) : LeavesInv (step s) := by
  cases hd : decode s.port with
  | incomplete => rw [step_of_incomplete hd]; exact leavesInv_next h
  | illegalOpcode cw rest => rw [step_of_illegalOpcode hd]; exact leavesInv_refuse (h.setPort rest) _
  | reservedField cw rest => rw [step_of_reservedField hd]; exact leavesInv_refuse (h.setPort rest) _
  | command i rest => rw [step_of_command hd]; exact leavesInv_exec (h.setPort rest) i

end

/-- Settles O54: whatever the decoder's verdict, the end of the command it leads to keeps the invariant. -/
theorem stepKeepsInv : Obligations.StepKeepsInv := by
  intro s t h ht
  exact leavesInv_step h t ht

end Sys2Proof.Machine
end

section
/-! SUPPORT. The other statements of 10_state.md: the sticky marks (R30), the frame of the buffer (R20, R26), and the
commands that see their operands alone (R29). -/

namespace Sys2Proof.Machine

/-- Settles O55: by the three ways a step with a whole command on the port can end. -/
theorem marksAreSticky : Obligations.MarksAreSticky := by
  refine ⟨rfl, rfl, fun s t hd ht => ?_⟩
  obtain ⟨p, ⟨r, b, e⟩ | ⟨r, e⟩ | ⟨f, e, -⟩⟩ := step_cases s hd <;> rw [e] at ht <;> cases ht
  all_goals simp

/-- Settles O56: by the three ways a command can end. -/
theorem onlyFramerCommandsWriteTheBuffer : Obligations.OnlyFramerCommandsWriteTheBuffer := by
  intro i s t ht
  rcases exec_cases i s with ⟨r, b, e, hb⟩ | ⟨r, e⟩ | ⟨f, e, -⟩ <;> rw [e] at ht <;> cases ht
  case inl => exact ⟨rfl, rfl, hb.resolve_left⟩
  all_goals exact ⟨rfl, rfl, fun hne => absurd rfl hne⟩

/-! ### Two runs of one command -/

/-- Where both outcomes are next states, the host receives the same answer. -/
def AnswerAlike (o o' : Out) : Prop := ∀ t t', o = .next t → o' = .next t' → t.answer = t'.answer

section

variable (s s' : State)

theorem answerAlike_respond (r : Response) : AnswerAlike (respond r s) (respond r s') := by
  rintro _ _ ⟨⟩ ⟨⟩
  rfl

theorem answerAlike_refuse (r : RefusalReport) : AnswerAlike (refuse r s) (refuse r s') := by
  rintro _ _ ⟨⟩ ⟨⟩
  rfl

/-- The range check looks at the operands alone. -/
theorem answerAlike_checkRange {i : Instr} {k k' : Out} (h : AnswerAlike k k') :
    AnswerAlike (checkRange i s k) (checkRange i s' k') := by
  cases hr : operandsInRange i with
  | true => rwa [checkRange_of_inRange s k hr, checkRange_of_inRange s' k' hr]
  | false =>
    rw [checkRange_of_outOfRange s k hr, checkRange_of_outOfRange s' k' hr]
    exact answerAlike_refuse s s' _

/-- The packet check looks at the stream alone. -/
theorem answerAlike_checkPacket {i : Instr} {d : List Byte} {k k' : Out} (h : AnswerAlike k k') :
    AnswerAlike (checkPacket i d s k) (checkPacket i d s' k') := by
  cases ha : accepted d with
  | true => rwa [checkPacket_of_accepted i s k ha, checkPacket_of_accepted i s' k' ha]
  | false =>
    rw [checkPacket_of_not_accepted i s k ha, checkPacket_of_not_accepted i s' k' ha]
    exact answerAlike_refuse s s' _

end

/-- Settles O57: a stateless command is a response to its operands, behind checks of its operands. -/
theorem statelessCommandsSeeOnlyTheirOperands : Obligations.StatelessCommandsSeeOnlyTheirOperands := by
  intro i s s' t t' hadddata hparse hclrbuf hbufsize ht ht'
  have hrespond := answerAlike_respond s s'
  suffices AnswerAlike (exec i s) (exec i s') from this t t' ht ht'
  cases i with
  | adddata d => exact absurd rfl (hadddata d)
  | parse => exact absurd rfl hparse
  | clrbuf => exact absurd rfl hclrbuf
  | bufsize => exact absurd rfl hbufsize
  | getbit => exact answerAlike_checkRange s s' (hrespond _)
  | getbits => exact answerAlike_checkRange s s' (hrespond _)
  | rocker => exact answerAlike_checkRange s s' (hrespond _)
  | telegram => exact answerAlike_checkPacket s s' (hrespond _)
  | detect => exact answerAlike_checkPacket s s' (hrespond _)
  | decode => exact answerAlike_checkRange s s' (answerAlike_checkPacket s s' (hrespond _))
  | pktclass => exact answerAlike_checkPacket s s' (hrespond _)
  | _ => exact hrespond _

end Sys2Proof.Machine
end

section
/-! SUPPORT. What the decoder reads from an encoding (R80 to R84), and the statement of 20_memory.md that the commands
on the port run in issue order (R49). -/

namespace Sys2Proof

theorem length_lt_of_wellFormed {i : Instr} {d : List Byte} (hs : i.stream? = some d) (h : i.WellFormed) :
    d.length < 2 ^ 32 := by
  rw [Instr.WellFormed, Instr.wf, hs] at h
  exact of_decide_eq_true h

theorem decodeFields_commandWord (i : Instr) (rest : List Byte) :
    decodeFields i.opcode i.commandWord (i.stream?.getD []) rest = .command i rest := by
  obtain ⟨-, hclear, -, hbuild⟩ := Laws.CommandShape.holds i
  rw [decodeFields, if_pos hclear, hbuild]

/-- The decoder reads a command back from its encoding and leaves what stands behind it. -/
theorem decode_encode_append {i : Instr} (rest : List Byte) (h : i.WellFormed) :
    decode (encode i ++ rest) = .command i rest := by
  obtain ⟨hop, -, hstream, -⟩ := Laws.CommandShape.holds i
  have hword := hop ▸ be32_fields i.commandWord
  have hfields := decodeFields_commandWord i rest
  cases hs : i.stream? with
  | none =>
    rw [hs] at hstream hfields
    simpa [encode, hs, bytes32_eq, decode_cons, hop, hword, hstream] using hfields
  | some d =>
    rw [hs] at hstream hfields
    have hlen : (be32 (fieldOP (lengthWord d)) (fieldA (lengthWord d)) (fieldP (lengthWord d))
        (fieldQ (lengthWord d))).toNat = d.length := by
      rw [be32_fields, lengthWord_toNat (length_lt_of_wellFormed hs h)]
    have htake := takeStream_cons rest hlen
    simpa [encode, hs, bytes32_eq, decode_cons, hop, hword, hstream, htake] using hfields

end Sys2Proof

namespace Sys2Proof.Machine

/-- Every command answers a next state and leaves the port alone. -/
theorem exec_next (i : Instr) (s : State) : ∃ t, exec i s = .next t ∧ t.port = s.port := by
  rcases exec_cases i s with ⟨r, b, e, -⟩ | ⟨r, e⟩ | ⟨f, e, -⟩ <;> exact ⟨_, e, rfl⟩

/-- One command performed on the outcome of the commands before it. -/
def thenExec (o : Out) (i : Instr) : Out :=
  match o with
  | .next t => exec i t
  | .fault r => .fault r
  | .refused r => .refused r

theorem run_succ_of_step {s t : State} (n : Nat) (h : step s = .next t) :
    Sys2Proof.core.run (n + 1) s = Sys2Proof.core.run n t := by
  have hcore : Sys2Proof.core.step s = .next t := h
  simp only [Host.Core.run, hcore]

/-- A step on a port that starts with an encoded command performs it and leaves the bytes behind it, whatever they
are. -/
theorem step_of_encode {i : Instr} {s t : State} {behind : List Byte} (hi : i.WellFormed)
    (hport : s.port = encode i ++ behind) (p : List Byte) (ht : exec i { s with port := p } = .next t) :
    step s = .next (t.setPort behind) := by
  have hdecode : decode s.port = .command i behind := hport ▸ decode_encode_append behind hi
  exact (step_of_command hdecode).trans (exec_setPort i { s with port := p } t behind ht)

/-- The run of a port that holds encoded commands is the commands performed one after another. -/
theorem run_encodeAll {cmds : List Instr} {s : State} {rest : List Byte} (hwf : ∀ i ∈ cmds, i.WellFormed)
    (hport : s.port = encodeAll cmds ++ rest) :
    Sys2Proof.core.run cmds.length s = cmds.foldl thenExec (.next { s with port := rest }) := by
  induction cmds generalizing s with
  | nil =>
    have hs : s = { s with port := rest } := congrArg s.setPort hport
    exact congrArg Host.Outcome.next hs
  | cons i cmds ih =>
    obtain ⟨hi, hcmds⟩ := List.forall_mem_cons.mp hwf
    have hfront : s.port = encode i ++ (encodeAll cmds ++ rest) := by simpa [encodeAll] using hport
    obtain ⟨t, ht, htport⟩ := exec_next i { s with port := rest }
    have hrest : t = { t with port := rest } := congrArg t.setPort htport
    have hrun := run_succ_of_step cmds.length (step_of_encode hi hfront rest ht)
    have hthen : cmds.foldl thenExec (exec i { s with port := rest }) =
        cmds.foldl thenExec (.next { t with port := rest }) := by rw [ht, ← hrest]
    exact hrun.trans ((ih hcmds rfl).trans hthen.symm)

/-- Settles O10: by induction on the commands; each is decoded from its own encoding, and none looks at the bytes of
those behind it. -/
theorem commandsRunInIssueOrder : Obligations.CommandsRunInIssueOrder := by
  intro cmds s rest hwf hport
  exact run_encodeAll hwf hport

end Sys2Proof.Machine
end

section
/-! SUPPORT. PARSE on the buffer that PARSE leaves, and the statement of 20_memory.md about it (R47). -/

namespace Sys2Proof.Machine

theorem toSync_toSync (b : List Byte) : toSync (toSync b) = toSync b := List.dropWhile_idempotent _ b

theorem passAligned_stop_eq {b left : List Byte} (h : passAligned b = .stop left) : left = b := by
  rcases passAligned_cases b with ⟨-, e⟩ | ⟨_, -, -, e⟩ | ⟨_, -, -, -, e⟩ | ⟨_, -, -, -, -, e⟩ | ⟨_, -, -, -, -, e⟩ <;>
    rw [e] at h <;> cases h <;> rfl

/-- What stopped the loop once stops it again at once. -/
theorem parsePass_of_stop {b left : List Byte} (h : parsePass b = .stop left) : parsePass left = .stop left := by
  unfold parsePass at h
  split at h
  next hshort =>
    cases h
    exact if_pos hshort
  next =>
    obtain rfl := passAligned_stop_eq h
    rw [parsePass, toSync_toSync, h, ite_self]

/-- The buffer PARSE leaves holds no packet for it and stays. -/
theorem parseBuffer_left (b : List Byte) : parseBuffer (parseBuffer b).2 = ([], (parseBuffer b).2) := by
  induction b using parse_induction with
  | pass b resync packet =>
    cases hp : parsePass b with
    | stop left => rw [parseBuffer_of_stop hp, parseBuffer_of_stop (parsePass_of_stop hp)]
    | resync left => rw [parseBuffer_of_resync hp, resync left hp]
    | packet p left => rw [parseBuffer_of_packet hp, packet p left hp]

@[simp] theorem delivered_nil (cap : Option Nat) (b : List Byte) : delivered cap b [] = [] :=
  List.sublist_nil.mp (delivered_sublist cap b [])

/-- PARSE on a buffer its loop returns nothing from and leaves answers no packets and changes nothing else. -/
theorem execParse_of_parseBuffer {s : State} (h : parseBuffer s.buf = ([], s.buf)) :
    execParse s = .next { s with buf := s.buf, answer := some (.response (.packets [])) } := by
  rw [execParse, h, delivered_nil]
  rfl

/-- Settles O32: the first PARSE's loop stopped on the buffer the second one finds. -/
theorem parseTwiceIsParseOnce : Obligations.ParseTwiceIsParseOnce := by
  rintro s _ ⟨⟩
  exact execParse_of_parseBuffer (parseBuffer_left s.buf)

end Sys2Proof.Machine
end

section
/-! SUPPORT. The decoder's verdict on a whole command and on an incomplete one, the encoder on the commands the opcode
map builds, and the statements of 30_encoding.md about the command port (R80 to R87, R91). -/

open Sys2Proof.Claims

namespace Sys2Proof

/-! ### The opcode map -/

/-- The reserved values are those that no row of the map has. -/
theorem Opcode.ofByte_eq_none_iff (op : Byte) : Opcode.ofByte op = none ↔ ReservedOpcode op := by
  simp only [Opcode.ofByte, Opcode.all, List.find?_eq_none, List.forall_mem_cons, List.not_mem_nil,
    false_imp_iff, implies_true, and_true, Opcode.toByte, beq_iff_eq, ReservedOpcode]
  bv_omega

theorem Opcode.hasStream_iff (o : Opcode) : o.format.hasStream = true ↔ StreamOpcode o.toByte := by
  cases o <;> simp [Opcode.format, Format.hasStream, StreamOpcode, Opcode.toByte]

/-- Every stream opcode is in the map. -/
theorem Opcode.exists_of_streamOpcode {op : Byte} (h : StreamOpcode op) :
    ∃ o, Opcode.ofByte op = some o ∧ o.format.hasStream = true := by
  cases ho : Opcode.ofByte op with
  | none =>
    have hreserved := (Opcode.ofByte_eq_none_iff op).mp ho
    simp only [StreamOpcode, List.mem_cons, List.not_mem_nil, or_false] at h
    rw [ReservedOpcode] at hreserved
    bv_omega
  | some o => exact ⟨o, rfl, o.hasStream_iff.mpr (Opcode.ofByte_eq_some ho ▸ h)⟩

/-! ### The encoder -/

/-- An encoding starts with the opcode's value. -/
theorem encode_head (i : Instr) : (encode i).head? = some i.opcode.toByte := by
  obtain ⟨hop, -, -, -⟩ := Laws.CommandShape.holds i
  exact congrArg some hop

/-- The encoding of a built command whose must-be-zero fields are zero is the four bytes it was built from, then its
stream behind the stream's length word (R80 to R82). -/
theorem encode_build {o : Opcode} {a p q : Byte} (d : List Byte)
    (h : o.format.reservedClear (be32 o.toByte a p q) = true) :
    encode (o.build a p q d) =
      o.toByte :: a :: p :: q :: if o.format.hasStream then bytes32 (lengthWord d) ++ d else [] := by
  simp only [encode, Machine.Opcode.build_word o a p q d h, Machine.Opcode.build_stream, bytes32_be32]
  cases o.format.hasStream <;> rfl

/-! ### The decoder's verdicts -/

theorem decodeFields_eq_command {o : Opcode} {cw : Word32} {d rest rest' : List Byte} {i : Instr}
    (h : decodeFields o cw d rest = .command i rest') :
    o.format.reservedClear cw = true ∧ o.build (fieldA cw) (fieldP cw) (fieldQ cw) d = i ∧ rest = rest' := by
  unfold decodeFields at h
  split at h
  next hclear =>
    injection h with hi hrest
    exact ⟨hclear, hi, hrest⟩
  next => cases h

/-- A decoded command was built from the four bytes in front and the stream, if its format has one, behind them. -/
theorem decode_eq_command {port rest : List Byte} {i : Instr} (h : decode port = .command i rest) :
    ∃ o a p q d t, port = Opcode.toByte o :: a :: p :: q :: t ∧
      o.format.reservedClear (be32 o.toByte a p q) = true ∧ i = o.build a p q d ∧
      if o.format.hasStream then takeStream t = some (d, rest) else t = rest := by
  match port with
  | [] | [_] | [_, _] | [_, _, _] => cases h
  | op :: a :: p :: q :: t =>
    rw [decode_cons] at h
    cases ho : Opcode.ofByte op with
    | none => rw [ho] at h; cases h
    | some o =>
      obtain rfl := Opcode.ofByte_eq_some ho
      simp only [ho] at h
      cases hs : o.format.hasStream with
      | false =>
        obtain ⟨hclear, hi, hrest⟩ := decodeFields_eq_command (by simpa [hs] using h)
        exact ⟨o, a, p, q, [], t, rfl, hclear, by simpa using hi.symm, by simpa [hs] using hrest⟩
      | true =>
        cases ht : takeStream t with
        | none => simp [hs, ht] at h
        | some taken =>
          obtain ⟨hclear, hi, hrest⟩ := decodeFields_eq_command (by simpa [hs, ht] using h)
          exact ⟨o, a, p, q, taken.1, t, rfl, hclear, by simpa using hi.symm, by simp [hs, ht, ← hrest]⟩

/-- A port that holds a whole command is told illegal or read field by field, by its opcode alone (R85, R87). -/
theorem decode_of_holdsCommand {port : List Byte} {op a p q : Byte} {d rest : List Byte}
    (h : HoldsCommand port op a p q d rest) :
    decode port = (Opcode.ofByte op).elim (.illegalOpcode (be32 op a p q) rest)
      fun o => decodeFields o (be32 op a p q) d rest := by
  rcases h with ⟨hop, rfl, rfl⟩ | ⟨hop, l0, l1, l2, l3, hcount, rfl⟩
  · rw [decode_cons]
    cases ho : Opcode.ofByte op with
    | none => rfl
    | some o =>
      have hstream : ¬o.format.hasStream = true := fun hs => hop (Opcode.ofByte_eq_some ho ▸ o.hasStream_iff.mp hs)
      simp [hstream]
  · obtain ⟨o, ho, hs⟩ := Opcode.exists_of_streamOpcode hop
    have hlen := (be32_toNat l0 l1 l2 l3).trans hcount.symm
    simp [decode_cons, ho, hs, takeStream_cons rest hlen]

/-- A stream is not taken before its length word and all the bytes it counts have arrived. -/
theorem takeStream_eq_none {t : List Byte} (h : t.length < 4 ∨ t.length < 4 + BE32 t 0) : takeStream t = none := by
  cases ht : takeStream t with
  | none => rfl
  | some taken =>
    obtain ⟨l0, l1, l2, l3, rfl, hlen⟩ := takeStream_eq_some ht
    have hword : BE32 (l0 :: l1 :: l2 :: l3 :: (taken.1 ++ taken.2)) 0 = taken.1.length :=
      (be32_toNat l0 l1 l2 l3).symm.trans hlen
    rw [hword] at h
    simp only [List.length_cons, List.length_append] at h
    omega

theorem decode_of_takeStream_none {op : Byte} (a p q : Byte) {t : List Byte} (hop : StreamOpcode op)
    (ht : takeStream t = none) : decode (op :: a :: p :: q :: t) = .incomplete := by
  obtain ⟨o, ho, hs⟩ := Opcode.exists_of_streamOpcode hop
  simp [decode_cons, ho, hs, ht]

end Sys2Proof

namespace Sys2Proof.Machine

/-- Settles O1: the decoder finds the command's opcode, stream and fields in its encoding. -/
theorem encodedCommandDecodesBack : Obligations.EncodedCommandDecodesBack := by
  intro i rest h
  exact decode_encode_append rest h

/-- Settles O2: what is decoded was built from the bytes in front of the port, and encoding it gives them again. -/
theorem decodedBytesAreTheEncoding : Obligations.DecodedBytesAreTheEncoding := by
  intro port rest i h
  obtain ⟨o, a, p, q, d, t, rfl, hclear, rfl, ht⟩ := decode_eq_command h
  rw [encode_build d hclear, Instr.WellFormed, Instr.wf, Opcode.build_stream]
  cases hs : o.format.hasStream with
  | false => simpa [hs] using ht
  | true =>
    rw [hs, if_pos rfl] at ht
    obtain ⟨l0, l1, l2, l3, rfl, hlen⟩ := takeStream_eq_some ht
    have hword : lengthWord d = be32 l0 l1 l2 l3 := by rw [lengthWord, ← hlen, BitVec.ofNat_toNat, BitVec.setWidth_eq]
    have hfits : d.length < 2 ^ 32 := hlen ▸ (be32 l0 l1 l2 l3).isLt
    exact ⟨by simp [hword], decide_eq_true hfits⟩

/-- Settles O5: the map has no row for a reserved value, and one for each other value. -/
theorem reservedOpcodeIsRefused : Obligations.ReservedOpcodeIsRefused := by
  refine ⟨fun s op a p q rest hop hport => ?_, fun op hop => ?_⟩
  · have hdecode : decode s.port = .illegalOpcode (be32 op a p q) rest := by
      rw [hport, decode_cons, (Opcode.ofByte_eq_none_iff op).mpr hop]
    exact step_of_illegalOpcode hdecode
  · obtain ⟨o, ho⟩ := Option.ne_none_iff_exists'.mp (mt (Opcode.ofByte_eq_none_iff op).mp hop)
    refine ⟨o.build 0 0 0 [], ?_⟩
    rw [encode_head, Opcode.build_opcode, Opcode.ofByte_eq_some ho]

/-- A step on a command that is read field by field leaves what stands behind it on the port, whether the command is
refused or performed. -/
theorem step_of_decodeFields {s : State} {o : Opcode} {cw : Word32} {d rest : List Byte}
    (h : decode s.port = decodeFields o cw d rest) : ∃ t, step s = .next t ∧ t.port = rest := by
  unfold decodeFields at h
  split at h
  · rw [step_of_command h]
    exact exec_next _ _
  · rw [step_of_reservedField h]
    exact ⟨_, rfl, rfl⟩

/-- A step takes the whole command off the port, and nothing more, whatever its outcome (R85, R87). -/
theorem step_of_holdsCommand {s : State} {op a p q : Byte} {d rest : List Byte}
    (h : HoldsCommand s.port op a p q d rest) : ∃ t, step s = .next t ∧ t.port = rest := by
  have hdecode := decode_of_holdsCommand h
  cases ho : Opcode.ofByte op with
  | none =>
    rw [ho] at hdecode
    rw [step_of_illegalOpcode hdecode]
    exact ⟨_, rfl, rfl⟩
  | some o =>
    rw [ho] at hdecode
    exact step_of_decodeFields hdecode

/-- Settles O6: the step leaves what stands behind the command, and the port's form gives the lengths. -/
theorem opcodeTellsTheLength : Obligations.OpcodeTellsTheLength := by
  intro s op a p q d rest h
  refine ⟨step_of_holdsCommand h, ?_⟩
  rcases h with ⟨hop, -, hport⟩ | ⟨hop, l0, l1, l2, l3, -, hport⟩
  · refine ⟨fun _ => ?_, fun hstream => absurd hstream hop⟩
    simp only [hport, List.length_cons]
    omega
  · refine ⟨fun hnone => absurd hop hnone, fun _ => ?_⟩
    simp only [hport, List.length_cons, List.length_append]
    omega

/-- Settles O4: the written bytes are the encodings of the commands they stand for. -/
theorem writtenWordsDecode : Obligations.WrittenWordsDecode := by
  have key {port : List Byte} {i : Instr} (hport : encode i = port) (h : i.WellFormed) :
      decode port = .command i [] := by
    simpa [hport] using decode_encode_append [] h
  exact ⟨key rfl rfl, key rfl rfl, key rfl rfl, key rfl rfl, key rfl rfl⟩

/-- Settles O9: on both kinds of incomplete port the decoder answers that the command is incomplete. -/
theorem incompleteCommandWaits : Obligations.IncompleteCommandWaits := by
  refine ⟨fun s h => step_of_incomplete (decode_short h), fun s op a p q t hop hport ht => ?_⟩
  exact step_of_incomplete (hport ▸ decode_of_takeStream_none a p q hop (takeStream_eq_none ht))

/-- Settles O12: each of the two steps decodes the encoding in front of the port, and PARSE always responds. -/
theorem feedIsAdddataThenParse : Obligations.FeedIsAdddataThenParse := by
  intro s d rest hd hport
  refine ⟨rfl, ?_⟩
  have hadd : decode s.port = .command (.adddata d) (encode .parse ++ rest) := by
    rw [hport, List.append_assoc]
    exact decode_encode_append _ (decide_eq_true hd)
  obtain ⟨t, ht, htport⟩ := exec_next (.adddata d) { s with port := encode .parse ++ rest }
  have hparse : decode t.port = .command .parse rest := htport ▸ decode_encode_append rest rfl
  exact ⟨t, _, _, (step_of_command hadd).trans ht, ht, (step_of_command hparse).trans rfl, rfl, rfl, rfl⟩

end Sys2Proof.Machine
end

section
/-! SUPPORT. The checksum and the packets of the statements' vocabulary are the machine's, what an accepted packet is
built from, PARSE on packets that stand one behind another, and the statements of 30_encoding.md about them (R60 to
R63, R88). -/

open Sys2Proof.Claims

namespace Sys2Proof.Machine

/-! ### The checksum -/

theorem crcRound_toNat (acc : Byte) : (crcRound acc).toNat = crcBit acc.toNat := by
  have hmsb : acc.getLsbD 7 = decide (128 ≤ acc.toNat) := acc.msb_eq_decide
  have hshift : (acc <<< 1).toNat = 2 * acc.toNat % 256 := by
    rw [BitVec.toNat_shiftLeft, Nat.shiftLeft_eq, Nat.mul_comm, pow_one]
  rw [crcRound, crcBit, hmsb]
  by_cases hhigh : 128 ≤ acc.toNat
  · rw [if_pos (decide_eq_true hhigh), if_pos hhigh, BitVec.toNat_xor, hshift]
    rfl
  · rw [if_neg (by simpa using hhigh), if_neg hhigh, hshift]
    omega

theorem crcStep_toNat (acc b : Byte) : (crcStep acc b).toNat = crcByte (acc.toNat ^^^ b.toNat) := by
  simp only [crcStep, crcRounds, crcRound_toNat, BitVec.toNat_xor, crcByte]

theorem crcFold_toNat (s : List Byte) (acc : Byte) :
    (s.foldl crcStep acc).toNat = s.foldl (fun acc b => crcByte (acc ^^^ b.toNat)) acc.toNat := by
  induction s generalizing acc with
  | nil => rfl
  | cons b s ih => rw [List.foldl_cons, List.foldl_cons, ih, crcStep_toNat]

/-- The machine's checksum is R100's over unsigned integers. -/
theorem crc8_toNat (s : List Byte) : (crc8 s).toNat = crcSum s := crcFold_toNat s 0

/-- A byte is the checksum exactly when its value is R100's. -/
theorem eq_crc8_iff (c : Byte) (s : List Byte) : c = crc8 s ↔ c.toNat = crcSum s := by
  rw [← BitVec.toNat_inj, crc8_toNat]

/-! ### The header's fields by index -/

theorem Header.valid_iff (h : Header) :
    h.valid = true ↔ h.sync = 0x55 ∧ h.crc.toNat = crcSum [h.lenHi, h.lenLo, h.optLen, h.packetType] := by
  simp [Header.valid, syncByte, eq_crc8_iff]

section

variable {b : List Byte} {h : Header}

theorem headerOk_iff (hb : headerOf b = some h) : HeaderOk b ↔ h.valid = true := by
  obtain ⟨t, rfl⟩ := headerOf_eq_some hb
  rw [Header.valid_iff, ← BitVec.toNat_inj]
  rfl

theorem totalSize_of_headerOf (hb : headerOf b = some h) : totalSize b = h.totalSize := by
  obtain ⟨t, rfl⟩ := headerOf_eq_some hb
  rw [Header.totalSize_eq, Header.bodyLen, ← Nat.add_assoc]
  rfl

theorem bodyOk_iff (hb : headerOf b = some h) (hl : h.totalSize ≤ b.length) : BodyOk b ↔ bodyValid h b = true := by
  have hlast : totalSize b - 1 = 6 + h.bodyLen := by
    rw [totalSize_of_headerOf hb, Header.totalSize_eq]
    omega
  have hin : 6 + h.bodyLen < b.length := by
    rw [Header.totalSize_eq] at hl
    omega
  have hslice : slice b 6 (6 + h.bodyLen) = (b.drop 6).take h.bodyLen := by
    rw [slice, List.drop_take, Nat.add_sub_cancel_left]
  simp [BodyOk, hlast, hslice, at', bodyValid, bufRead_eq, headerLen, eq_crc8_iff, hin]

end

theorem isPacket_iff (b : List Byte) :
    IsPacket b ↔ 6 ≤ b.length ∧ HeaderOk b ∧ b.length = totalSize b ∧ BodyOk b := by
  constructor
  · rintro ⟨hlong, hsync, hcrc, hsize, hbody⟩
    have htotal : b.length = totalSize b := hsize
    exact ⟨hlong, ⟨hsync, hcrc⟩, htotal, by rwa [BodyOk, ← htotal]⟩
  · rintro ⟨hlong, ⟨hsync, hcrc⟩, htotal, hbody⟩
    rw [BodyOk, ← htotal] at hbody
    exact ⟨hlong, hsync, hcrc, htotal, hbody⟩

/-- The machine's packet check is R158's. -/
theorem isPacket_iff_accepted (b : List Byte) : IsPacket b ↔ accepted b = true := by
  rw [isPacket_iff, accepted_iff]
  constructor
  · rintro ⟨hlong, hheader, hsize, hbody⟩
    obtain ⟨h, hb⟩ := Option.ne_none_iff_exists'.mp (mt (headerOf_eq_none_iff b).mp (by omega))
    rw [totalSize_of_headerOf hb] at hsize
    exact ⟨h, hb, (headerOk_iff hb).mp hheader, hsize, (bodyOk_iff hb hsize.ge).mp hbody⟩
  · rintro ⟨h, hb, hvalid, hsize, hbody⟩
    have hlong : 6 ≤ b.length := by
      rw [hsize, Header.totalSize_eq]
      omega
    exact ⟨hlong, (headerOk_iff hb).mpr hvalid, hsize.trans (totalSize_of_headerOf hb).symm,
      (bodyOk_iff hb hsize.ge).mpr hbody⟩

/-! ### What an accepted packet is built from -/

/-- The six bytes of a header (R60). -/
def Header.bytes (h : Header) : List Byte := [h.sync, h.lenHi, h.lenLo, h.optLen, h.packetType, h.crc]

@[simp] theorem Header.bytes_length (h : Header) : h.bytes.length = 6 := rfl

theorem bodyValid_built {h : Header} {body : List Byte} (c : Byte) (hlen : body.length = h.bodyLen) :
    bodyValid h (h.bytes ++ body ++ [c]) = true ↔ c = crc8 body := by
  have hat : headerLen + h.bodyLen = (h.bytes ++ body).length := by simp [headerLen, hlen]
  have hbody : ((h.bytes ++ body ++ [c]).drop headerLen).take h.bodyLen = body := by
    simp [headerLen, Header.bytes, ← hlen]
  rw [bodyValid, bufRead_eq, hbody, hat, List.getElem?_concat_length]
  simp

/-- The accepted packets are a valid header, a body of the length it counts, and the body's checksum. -/
theorem accepted_iff_built (b : List Byte) :
    accepted b = true ↔ ∃ (h : Header) (body : List Byte),
      h.valid = true ∧ body.length = h.bodyLen ∧ b = h.bytes ++ body ++ [crc8 body] := by
  rw [accepted_iff]
  constructor
  · rintro ⟨h, hb, hvalid, hsize, hbody⟩
    obtain ⟨t, rfl⟩ : ∃ t, b = h.bytes ++ t := headerOf_eq_some hb
    rw [List.length_append, Header.totalSize_eq] at hsize
    rcases List.eq_nil_or_concat t with rfl | ⟨body, c, rfl⟩
    · rw [List.length_nil, Header.bytes_length] at hsize
      omega
    · have hlen : body.length = h.bodyLen := by
        rw [List.length_concat, Header.bytes_length] at hsize
        omega
      rw [List.concat_eq_append, ← List.append_assoc] at hbody ⊢
      exact ⟨h, body, hvalid, hlen, by rw [(bodyValid_built c hlen).mp hbody]⟩
  · rintro ⟨h, body, hvalid, hlen, rfl⟩
    refine ⟨h, rfl, hvalid, ?_, (bodyValid_built _ hlen).mpr rfl⟩
    rw [Header.totalSize_eq, List.length_append, List.length_append, Header.bytes_length, hlen, List.length_singleton]
    omega

/-- Settles O42: the body is the data region, as long as the length field counts, and the optional region behind it. -/
theorem acceptedPacketsAreTheBuiltOnes : Obligations.AcceptedPacketsAreTheBuiltOnes := by
  intro b
  rw [accepted_iff_built]
  constructor
  · rintro ⟨h, body, hvalid, hlen, rfl⟩
    obtain ⟨hsync, hcrc⟩ := h.valid_iff.mp hvalid
    rw [Header.bodyLen] at hlen
    refine ⟨h.lenHi, h.lenLo, h.optLen, h.packetType, h.crc, crc8 body, body.take h.dataLen, body.drop h.dataLen,
      ?_, ?_, hcrc, ?_, ?_⟩
    · rw [List.length_take, hlen, Nat.min_eq_left (Nat.le_add_right _ _)]; rfl
    · rw [List.length_drop, hlen, Nat.add_sub_cancel_left]
    · rw [List.take_append_drop, crc8_toNat]
    · simp [Header.bytes, hsync]
  · rintro ⟨hi, lo, ol, ty, hc, bc, data, opt, hdata, hopt, hhc, hbc, rfl⟩
    refine ⟨⟨0x55, hi, lo, ol, ty, hc⟩, data ++ opt, (Header.valid_iff _).mpr ⟨rfl, hhc⟩, ?_, ?_⟩
    · rw [List.length_append, hdata, hopt]; rfl
    · simp [Header.bytes, (eq_crc8_iff bc _).mpr hbc]

/-! ### Packets one behind another -/

theorem toSync_of_accepted {p : List Byte} (rest : List Byte) (hp : accepted p = true) :
    toSync (p ++ rest) = p ++ rest := by
  obtain ⟨h, body, hvalid, -, rfl⟩ := (accepted_iff_built p).mp hp
  simp [Header.bytes, (h.valid_iff.mp hvalid).1, toSync, syncByte]

/-- A pass on a buffer that starts with an accepted packet slices it out whole (R154, R159). -/
theorem parsePass_of_accepted {p : List Byte} (rest : List Byte) (hp : accepted p = true) :
    parsePass (p ++ rest) = .packet p rest := by
  obtain ⟨h, hhead, hvalid, hsize, hbody⟩ := (accepted_iff p).mp hp
  have hlen : h.totalSize ≤ (p ++ rest).length := by simp [hsize]
  have hlong : ¬(p ++ rest).length < headerLen := by
    rw [Header.totalSize_eq] at hlen
    rw [headerLen]
    omega
  rw [parsePass, if_neg hlong, toSync_of_accepted rest hp, passAligned, headerOf_append rest hhead]
  simp [hvalid, bodyValid_append rest hsize.ge, hbody, ← hsize, bufDrop]

theorem parseBuffer_of_accepted {p : List Byte} (rest : List Byte) (hp : accepted p = true) :
    parseBuffer (p ++ rest) = (p :: (parseBuffer rest).1, (parseBuffer rest).2) :=
  parseBuffer_of_packet (parsePass_of_accepted rest hp)

/-- The loop frames packets that stand one behind another into exactly those packets. -/
theorem parseBuffer_flatten {ps : List (List Byte)} (hps : ∀ p ∈ ps, accepted p = true) :
    parseBuffer ps.flatten = (ps, []) := by
  induction ps with
  | nil => rfl
  | cons p ps ih =>
    obtain ⟨hp, hrest⟩ := List.forall_mem_cons.mp hps
    rw [List.flatten_cons, parseBuffer_of_accepted _ hp, ih hrest]

theorem packets_bytes (ps : List (List Byte)) :
    (Response.packets ps).bytes =
      if ps.length < 2 ^ 32 then some (bytes32 (BitVec.ofNat 32 ps.length) ++ ps.flatten) else none := by
  simp only [Response.bytes, countBytes]
  split <;> rfl

/-- Under the capacity R9 decides, PARSE answers every packet its loop framed. -/
theorem execParse_of_unbounded {s : State} (hcap : s.config.resultCap = none) :
    execParse s = .next
      { s with buf := (parseBuffer s.buf).2, answer := some (.response (.packets (parseBuffer s.buf).1)) } := by
  rw [execParse, hcap, delivered_none]
  rfl

/-- Settles O41: by induction on the packets, each pass of PARSE slices out the one in front. -/
theorem packetsAreSelfDelimiting : Obligations.PacketsAreSelfDelimiting := by
  intro s ps hcap hps
  have hframed := parseBuffer_flatten fun p hp => (isPacket_iff_accepted p).mp (hps p hp)
  refine ⟨packets_bytes ps, ?_⟩
  have hparse := execParse_of_unbounded (s := { s with buf := ps.flatten }) hcap
  rwa [hframed] at hparse

end Sys2Proof.Machine
end

section
/-! SUPPORT. One step on a whole command of the opcode map, read field by field (R80 to R83, R87), and the two stream
formats of R81 as the statements write them. -/

open Sys2Proof.Claims

namespace Sys2Proof.Machine

/-- A step on a whole command of the map performs the command its fields build, or refuses it for a must-be-zero field
that is not zero (R83). -/
theorem step_of_holdsOpcode {s : State} {o : Opcode} {a p q : Byte} {d rest : List Byte}
    (h : HoldsCommand s.port o.toByte a p q d rest) :
    (o.format.reservedClear (be32 o.toByte a p q) = true →
      step s = exec (o.build a p q d) { s with port := rest }) ∧
    (¬o.format.reservedClear (be32 o.toByte a p q) = true → ReservedRefusal s rest o.toByte a p q) := by
  have hdecode : decode s.port = decodeFields o (be32 o.toByte a p q) d rest := by
    rw [decode_of_holdsCommand h, Opcode.ofByte_toByte, Option.elim_some]
  unfold decodeFields at hdecode
  constructor
  · intro hclear
    rw [if_pos hclear, fieldA_be32, fieldP_be32, fieldQ_be32] at hdecode
    exact step_of_command hdecode
  · intro hbroken
    rw [if_neg hbroken] at hdecode
    exact step_of_reservedField hdecode

/-- A length word that counts the stream makes the port of a stream opcode hold a whole command (R82, R87). -/
theorem holdsCommand_of_counts {port : List Byte} {o : Opcode} {a p q l0 l1 l2 l3 : Byte} {d rest : List Byte}
    (ho : o.format.hasStream = true) (hport : port = o.toByte :: a :: p :: q :: l0 :: l1 :: l2 :: l3 :: (d ++ rest))
    (hcount : Counts l0 l1 l2 l3 d) : HoldsCommand port o.toByte a p q d rest :=
  .inr ⟨o.hasStream_iff.mp ho, l0, l1, l2, l3, hcount, hport⟩

theorem reservedClear_S_iff (op a p q : Byte) :
    Format.S.reservedClear (be32 op a p q) = true ↔ a = 0 ∧ p = 0 ∧ q = 0 := by
  simp [Format.reservedClear, and_assoc]

theorem reservedClear_SA_iff (op a p q : Byte) : Format.SA.reservedClear (be32 op a p q) = true ↔ p = 0 ∧ q = 0 := by
  simp [Format.reservedClear]

/-- Every opcode of format S obeys it (R81). -/
theorem formatS_of_format {o : Opcode} {i : List Byte → Instr} (hf : o.format = .S) (hb : ∀ d, o.build 0 0 0 d = i d) :
    FormatS o.toByte i := by
  intro s a p q l0 l1 l2 l3 d rest hport hcount
  obtain ⟨hrun, hrefuse⟩ := step_of_holdsOpcode (holdsCommand_of_counts (by rw [hf]; rfl) hport hcount)
  rw [hf, reservedClear_S_iff] at hrun hrefuse
  refine ⟨fun hzero => ?_, hrefuse⟩
  obtain ⟨rfl, rfl, rfl⟩ := hzero
  rw [hrun ⟨rfl, rfl, rfl⟩, hb]

/-- Every opcode of format SA obeys it (R81). -/
theorem formatSA_of_format {o : Opcode} {i : Byte → List Byte → Instr} (hf : o.format = .SA)
    (hb : ∀ a d, o.build a 0 0 d = i a d) : FormatSA o.toByte i := by
  intro s a p q l0 l1 l2 l3 d rest hport hcount
  obtain ⟨hrun, hrefuse⟩ := step_of_holdsOpcode (holdsCommand_of_counts (by rw [hf]; rfl) hport hcount)
  rw [hf, reservedClear_SA_iff] at hrun hrefuse
  refine ⟨fun hzero => ?_, hrefuse⟩
  obtain ⟨rfl, rfl⟩ := hzero
  rw [hrun ⟨rfl, rfl⟩, hb]

end Sys2Proof.Machine
end

section
/-! SUPPORT. The checksum as a map that is linear in XOR and loses nothing, and the statements of 41_crc8.md about it
and its two commands (R100 to R104). -/

open Sys2Proof.Claims

namespace Sys2Proof.Machine

/-! ### The two commands -/

/-- Settles O13: the response is the machine's checksum, which is R100's. -/
theorem crc8AnswersTheChecksum : Obligations.Crc8AnswersTheChecksum := by
  refine ⟨formatS_of_format (o := .crc8) rfl fun _ => rfl, fun _ => rfl, fun d s => ?_⟩
  exact ⟨crc8 d, crc8_toNat d, rfl⟩

theorem exec_crcvfy_answers (expected : Byte) (d : List Byte) (s : State) :
    Answers (exec (.crcvfy expected d) s) s (.bool (crc8 d == expected)) := rfl

/-- Settles O14: the comparison with the machine's checksum is the comparison with R100's. -/
theorem crcvfyComparesTheChecksum : Obligations.CrcvfyComparesTheChecksum := by
  refine ⟨formatSA_of_format (o := .crcvfy) rfl fun _ _ => rfl, rfl, rfl, fun expected d s => ?_⟩
  have hanswer := exec_crcvfy_answers expected d s
  rw [Ne, ← eq_crc8_iff]
  constructor
  · intro heq
    rwa [beq_iff_eq.mpr heq.symm] at hanswer
  · intro hne
    rwa [beq_false_of_ne (Ne.symm hne)] at hanswer

/-! ### Fold, leading zeros, self-check -/

theorem crc8_zero_cons (s : List Byte) : crc8 (0 :: s) = crc8 s := by
  rw [crc8, List.foldl_cons, crcStep_self, ← crc8]

theorem crc8_self_check (s : List Byte) : crc8 (s ++ [crc8 s]) = 0 := by rw [crc8_snoc, crcStep_self]

/-- Settles O15: a step on the accumulator's own value clears it, as does a zero byte at the start. -/
theorem crcFoldsAndChecksItself : Obligations.CrcFoldsAndChecksItself := by
  intro s b
  exact ⟨crc8_snoc s b, crc8_zero_cons s, crc8_self_check s⟩

/-! ### Linearity -/

theorem xor_xor_xor_swap (a b c d : Byte) : a ^^^ b ^^^ (c ^^^ d) = a ^^^ c ^^^ (b ^^^ d) := by ac_rfl

/-- A round is linear: the polynomial is XORed in for each operand with its high bit set, and twice is not at all. -/
theorem crcRound_xor (a b : Byte) : crcRound (a ^^^ b) = crcRound a ^^^ crcRound b := by
  simp only [crcRound, BitVec.getLsbD_xor, BitVec.shiftLeft_xor_distrib]
  cases a.getLsbD 7 <;> cases b.getLsbD 7
  case false.false => rfl
  case false.true => exact BitVec.xor_assoc (a <<< 1) (b <<< 1) crcPoly
  case true.false => simpa using xor_xor_xor_swap (a <<< 1) (b <<< 1) crcPoly 0
  case true.true => simpa using xor_xor_xor_swap (a <<< 1) (b <<< 1) crcPoly crcPoly

theorem crcRounds_xor (n : Nat) (a b : Byte) : crcRounds n (a ^^^ b) = crcRounds n a ^^^ crcRounds n b := by
  induction n generalizing a b with
  | zero => rfl
  | succ n ih => rw [crcRounds, crcRound_xor, ih, crcRounds, crcRounds]

theorem crcStep_xor (x y a b : Byte) : crcStep (x ^^^ y) (a ^^^ b) = crcStep x a ^^^ crcStep y b := by
  rw [crcStep, xor_xor_xor_swap, crcRounds_xor, crcStep, crcStep]

theorem crcFold_xor {s t : List Byte} (h : s.length = t.length) (x y : Byte) :
    (List.zipWith (· ^^^ ·) s t).foldl crcStep (x ^^^ y) = s.foldl crcStep x ^^^ t.foldl crcStep y := by
  induction s generalizing t x y with
  | nil =>
    obtain rfl := List.length_eq_zero_iff.mp h.symm
    rfl
  | cons a s ih =>
    cases t with
    | nil => cases h
    | cons b t =>
      rw [List.zipWith_cons_cons, List.foldl_cons, crcStep_xor, ih (Nat.succ.inj h), List.foldl_cons, List.foldl_cons]

/-- Settles O16: each round is linear, so each step and the whole fold are. -/
theorem crcIsLinear : Obligations.CrcIsLinear := by
  intro s t h
  exact crcFold_xor h 0 0

/-! ### Injectivity -/

/-- A round clears no accumulator but zero: the polynomial is odd and what it is XORed into is even. -/
theorem crcRound_eq_zero {a : Byte} (h : crcRound a = 0) : a = 0 := by
  have hbit : crcBit a.toNat = 0 := by rw [← crcRound_toNat, h]; rfl
  have ha := a.isLt
  apply BitVec.eq_of_toNat_eq
  unfold crcBit at hbit
  split at hbit
  · have hodd : 2 * a.toNat % 256 = 7 := Nat.xor_eq_zero_iff.mp hbit
    omega
  · have heven : a.toNat = 0 := by omega
    exact heven

theorem crcRound_injective : Function.Injective crcRound := by
  intro a b h
  have hzero : crcRound (a ^^^ b) = 0 := by rw [crcRound_xor, h]; exact BitVec.xor_self
  exact BitVec.xor_eq_zero_iff.mp (crcRound_eq_zero hzero)

theorem crcRounds_injective (n : Nat) : Function.Injective (crcRounds n) := by
  induction n with
  | zero => exact Function.injective_id
  | succ n ih => exact ih.comp crcRound_injective

theorem crcStep_left_injective (b : Byte) : Function.Injective (crcStep · b) :=
  (crcRounds_injective 8).comp fun _ _ => (BitVec.xor_left_inj b).mp

theorem crcStep_right_injective (acc : Byte) : Function.Injective (crcStep acc) :=
  (crcRounds_injective 8).comp fun _ _ => (BitVec.xor_right_inj acc).mp

theorem crcFold_injective (s : List Byte) : Function.Injective (s.foldl crcStep ·) := by
  induction s with
  | nil => exact Function.injective_id
  | cons b s ih => exact ih.comp (crcStep_left_injective b)

/-- Changing one byte of a sequence to another always changes its checksum. -/
theorem crc8_injective_at (before after : List Byte) :
    Function.Injective fun b => crc8 (before ++ b :: after) := by
  intro b c h
  simp only [crc8_append, List.foldl_cons] at h
  exact crcStep_right_injective _ (crcFold_injective after h)

theorem xor_twoPow_ne_self (b : Byte) {k : Nat} (hk : k < 8) : b ^^^ BitVec.ofNat 8 (2 ^ k) ≠ b := by
  intro h
  have hzero : BitVec.ofNat 8 (2 ^ k) = 0 := xor_left_eq_self_iff.mp h
  have hpow := congrArg BitVec.toNat hzero
  rw [BitVec.toNat_ofNat, Nat.mod_eq_of_lt (Nat.pow_lt_pow_right one_lt_two hk)] at hpow
  exact (Nat.two_pow_pos k).ne' hpow

/-- Settles O17: flipping a bit changes the byte it stands in, and the checksum tells any two values of a byte apart. -/
theorem crcDetectsSingleBitErrors : Obligations.CrcDetectsSingleBitErrors := by
  intro before after b k hk
  exact (crc8_injective_at before after).ne (xor_twoPow_ne_self b hk)

end Sys2Proof.Machine
end

section
/-! SUPPORT. The three formats of 42_bitfield.md as the statements write them (R81): one operand byte, two, and three. -/

open Sys2Proof.Claims

namespace Sys2Proof.Machine

/-- The port of an opcode without a stream holds a whole command in its four bytes (R87). -/
theorem holdsCommand_of_noStream {port : List Byte} {o : Opcode} {a p q : Byte} {rest : List Byte}
    (ho : o.format.hasStream = false) (hport : port = o.toByte :: a :: p :: q :: rest) :
    HoldsCommand port o.toByte a p q [] rest := by
  have hnone : ¬StreamOpcode o.toByte := by rw [← o.hasStream_iff, ho]; exact Bool.false_ne_true
  exact .inl ⟨hnone, rfl, hport⟩

theorem reservedClear_B_iff (op a p q : Byte) : Format.B.reservedClear (be32 op a p q) = true ↔ p = 0 ∧ q = 0 := by
  simp [Format.reservedClear]

theorem reservedClear_BP_iff (op a p q : Byte) : Format.BP.reservedClear (be32 op a p q) = true ↔ q = 0 := by
  simp [Format.reservedClear]

/-- Every opcode of format B obeys it (R81). -/
theorem formatB_of_format {o : Opcode} {i : Byte → Instr} (hf : o.format = .B) (hb : ∀ a, o.build a 0 0 [] = i a) :
    FormatB o.toByte i := by
  intro s a p q rest hport
  obtain ⟨hrun, hrefuse⟩ := step_of_holdsOpcode (holdsCommand_of_noStream (by rw [hf]; rfl) hport)
  rw [hf, reservedClear_B_iff] at hrun hrefuse
  refine ⟨fun hzero => ?_, hrefuse⟩
  obtain ⟨rfl, rfl⟩ := hzero
  rw [hrun ⟨rfl, rfl⟩, hb]

/-- Every opcode of format BP obeys it (R81). -/
theorem formatBP_of_format {o : Opcode} {i : Byte → Byte → Instr} (hf : o.format = .BP)
    (hb : ∀ a p, o.build a p 0 [] = i a p) : FormatBP o.toByte i := by
  intro s a p q rest hport
  obtain ⟨hrun, hrefuse⟩ := step_of_holdsOpcode (holdsCommand_of_noStream (by rw [hf]; rfl) hport)
  rw [hf, reservedClear_BP_iff] at hrun hrefuse
  refine ⟨fun hzero => ?_, hrefuse⟩
  obtain rfl := hzero
  rw [hrun rfl, hb]

/-- Every opcode of format BPQ obeys it: it has no must-be-zero field (R81). -/
theorem formatBPQ_of_format {o : Opcode} {i : Byte → Byte → Byte → Instr} (hf : o.format = .BPQ)
    (hb : ∀ a p q, o.build a p q [] = i a p q) : FormatBPQ o.toByte i := by
  intro s a p q rest hport
  obtain ⟨hrun, -⟩ := step_of_holdsOpcode (holdsCommand_of_noStream (by rw [hf]; rfl) hport)
  rw [hrun (by rw [hf]; rfl), hb]

end Sys2Proof.Machine
end

section
/-! SUPPORT. The bit-field functions over unsigned integers, and the statements of 42_bitfield.md about its nine
commands (R120 to R136). -/

open Sys2Proof.Claims

namespace Sys2Proof.Machine

/-! ### The functions over unsigned integers -/

/-- Masking with `2^n - 1` is the remainder by `2^n`; the mask's own narrowing to eight bits loses nothing of it. -/
theorem bits_toNat (b : Byte) (lo hi : Nat) : (bits b lo hi).toNat = b.toNat / 2 ^ lo % 2 ^ (hi - lo + 1) := by
  have hshift : b.toNat / 2 ^ lo < 2 ^ 8 := (Nat.div_le_self _ _).trans_lt b.isLt
  calc (bits b lo hi).toNat
    _ = b.toNat / 2 ^ lo &&& (2 ^ (hi - lo + 1) - 1) % 2 ^ 8 := by
      rw [bits, BitVec.toNat_and, BitVec.toNat_ushiftRight, BitVec.toNat_ofNat, Nat.shiftRight_eq_div_pow]
    _ = (b.toNat / 2 ^ lo &&& (2 ^ (hi - lo + 1) - 1)) % 2 ^ 8 := by
      rw [Nat.and_mod_two_pow, Nat.mod_eq_of_lt hshift]
    _ = b.toNat / 2 ^ lo % 2 ^ (hi - lo + 1) := by
      rw [Nat.and_two_pow_sub_one_eq_mod, Nat.mod_eq_of_lt ((Nat.mod_le _ _).trans_lt hshift)]

theorem bit_eq_bits (b : Byte) (i : Nat) : bit b i = bits b i i := by rw [bit, bits, Nat.sub_self]; rfl

theorem bit_toNat (b : Byte) (i : Nat) : (bit b i).toNat = b.toNat / 2 ^ i % 2 := by
  rw [bit_eq_bits, bits_toNat, Nat.sub_self, Nat.zero_add, Nat.pow_one]

theorem bitSet_iff (b : Byte) (i : Nat) : bitSet b i = true ↔ b.toNat / 2 ^ i % 2 = 1 := by
  rw [bitSet, beq_iff_eq, ← bit_toNat]
  exact BitVec.toNat_inj.symm

theorem hiNib_toNat (b : Byte) : (hiNib b).toNat = b.toNat / 16 := by
  have hb := b.isLt
  have hbits : (hiNib b).toNat = b.toNat / 2 ^ 4 % 2 ^ 4 := bits_toNat b 4 7
  omega

theorem loNib_toNat (b : Byte) : (loNib b).toNat = b.toNat % 16 := by
  rw [loNib, BitVec.toNat_and]
  exact Nat.and_two_pow_sub_one_eq_mod b.toNat 4

theorem msb_eq_decide (b : Byte) : msb b = decide (128 ≤ b.toNat) := by
  have hb := b.isLt
  rw [msb, Bool.eq_iff_iff, bitSet_iff, decide_eq_true_iff]
  omega

/-- The machine's rocker table is R72's. -/
theorem rockerOf_eq (c : Byte) : rockerOf c = rockerPosition c.toNat := by
  simp only [rockerOf, rockerPosition, beq_iff_eq, ← BitVec.toNat_inj]
  rfl

theorem actionOf_of_set {status : Byte} (h : status.toNat / 32 % 2 = 1) : actionOf status = .pressed :=
  if_pos ((bitSet_iff status 5).mpr h)

theorem actionOf_of_clear {status : Byte} (h : status.toNat / 32 % 2 = 0) : actionOf status = .released := by
  have hclear : ¬bitSet status 5 = true := by
    rw [bitSet_iff]
    omega
  exact if_neg hclear

theorem kindOf_eq_none {n : Byte} (h : n.toNat = 0 ∨ 4 < n.toNat) : kindOf n = none := by
  have hne {m : Byte} (hm : 1 ≤ m.toNat ∧ m.toNat ≤ 4) : ¬(n == m) = true := by
    rw [beq_iff_eq, ← BitVec.toNat_inj]
    omega
  rw [kindOf, if_neg (hne (by decide)), if_neg (hne (by decide)), if_neg (hne (by decide)), if_neg (hne (by decide))]

/-- The machine's dim time is R75's: the largest, that of byte 255, fits a u16. -/
theorem dimTimeOf_toNat (r : Byte) : (dimTimeOf r).toNat = seconds r.toNat := by
  have hr := r.isLt
  rw [dimTimeOf, BitVec.toNat_ofNat, seconds]
  split_ifs <;> omega

/-- The bytes of a u16 response are its two digits to the base 256, most significant first (R88). -/
theorem seconds_bytes (v : Word16) :
    ∃ hi lo : Byte, (Response.seconds v).bytes = some [hi, lo] ∧ v.toNat = hi.toNat * 256 + lo.toNat := by
  refine ⟨v.extractLsb' 8 8, v.extractLsb' 0 8, rfl, ?_⟩
  have hv := v.isLt
  simp only [BitVec.extractLsb'_toNat, Nat.shiftRight_eq_div_pow]
  omega

/-! ### The checked operands (R86) -/

theorem operandsInRange_getbit_iff (byte pos : Byte) : operandsInRange (.getbit byte pos) = true ↔ pos.toNat ≤ 7 :=
  decide_eq_true_iff

theorem operandsInRange_getbits_iff (byte lo hi : Byte) :
    operandsInRange (.getbits byte lo hi) = true ↔ hi.toNat ≤ 7 ∧ lo.toNat ≤ hi.toNat := by
  rw [operandsInRange, Bool.and_eq_true, decide_eq_true_iff, decide_eq_true_iff]

theorem operandsInRange_rocker_iff (code : Byte) : operandsInRange (.rocker code) = true ↔ code.toNat ≤ 3 :=
  decide_eq_true_iff

theorem exec_refuses_of_outOfRange {i : Instr} (s : State) (h : ¬operandsInRange i = true) :
    Refuses (exec i s) s (.operandRange i.commandWord) :=
  exec_outOfRange i s (Bool.eq_false_of_not_eq_true h)

theorem exec_rocker_answers {code : Byte} (s : State) (h : code.toNat ≤ 3) :
    Answers (exec (.rocker code) s) s (.rocker (rockerPosition code.toNat)) := by
  rw [← rockerOf_eq]
  exact checkRange_of_inRange s _ ((operandsInRange_rocker_iff code).mpr h)

/-! ### The commands -/

theorem exec_action_answers (status : Byte) (s : State) :
    Answers (exec (.action status) s) s (.action (actionOf status)) := rfl

theorem exec_cmdkind_answers (nibble : Byte) (s : State) :
    Answers (exec (.cmdkind nibble) s) s (.commandKind (kindOf nibble)) := rfl

/-- Settles O18: the shift and the mask leave the position's binary digit. -/
theorem getbitReadsOneBit : Obligations.GetbitReadsOneBit := by
  refine ⟨formatBP_of_format (o := .getbit) rfl fun _ _ => rfl, fun byte pos s => ⟨fun hpos => ?_, fun hpos => ?_⟩⟩
  · have hrange := (operandsInRange_getbit_iff byte pos).mpr hpos
    exact ⟨bit byte pos.toNat, bit_toNat _ _, checkRange_of_inRange s _ hrange⟩
  · apply exec_refuses_of_outOfRange
    rw [operandsInRange_getbit_iff]
    omega

/-- Settles O19: the shift and the mask leave the range's digits, which fit the mask. -/
theorem getbitsReadsARange : Obligations.GetbitsReadsARange := by
  refine ⟨formatBPQ_of_format (o := .getbits) rfl fun _ _ _ => rfl, fun byte lo hi s => ⟨fun hhi hlo => ?_, fun h => ?_⟩⟩
  · have hrange := (operandsInRange_getbits_iff byte lo hi).mpr ⟨hhi, hlo⟩
    exact ⟨bits byte lo.toNat hi.toNat, bits_toNat _ _ _, checkRange_of_inRange s _ hrange⟩
  · apply exec_refuses_of_outOfRange
    rw [operandsInRange_getbits_iff]
    omega

/-- Settles O20: the upper nibble is the quotient by 16. -/
theorem hinibReadsTheUpperNibble : Obligations.HinibReadsTheUpperNibble := by
  refine ⟨formatB_of_format (o := .hinib) rfl fun _ => rfl, fun _ => rfl, fun byte s => ?_⟩
  exact ⟨hiNib byte, hiNib_toNat byte, rfl⟩

/-- Settles O21: the lower nibble is the remainder by 16. -/
theorem lonibReadsTheLowerNibble : Obligations.LonibReadsTheLowerNibble := by
  refine ⟨formatB_of_format (o := .lonib) rfl fun _ => rfl, fun byte s => ?_⟩
  exact ⟨loNib byte, loNib_toNat byte, rfl⟩

/-- Settles O22: bit 7 is set exactly from 128 on. -/
theorem msbTestsBitSeven : Obligations.MsbTestsBitSeven := by
  refine ⟨formatB_of_format (o := .msb) rfl fun _ => rfl, rfl, rfl, fun byte s => ?_⟩
  rw [← msb_eq_decide]
  rfl

/-- Settles O23: up to code 3 the answer is R72's position, and each row of the table is one value of it. -/
theorem rockerFollowsItsTable : Obligations.RockerFollowsItsTable := by
  refine ⟨formatB_of_format (o := .rocker) rfl fun _ => rfl, rfl, rfl, rfl, fun code s => ?_⟩
  have hrow {n : Nat} (hn : code.toNat = n) (hle : n ≤ 3) :
      Answers (exec (.rocker code) s) s (.rocker (rockerPosition n)) := hn ▸ exec_rocker_answers s (hn.trans_le hle)
  refine ⟨?_, fun hup => hrow hup (by decide), fun hdown => hrow hdown (by decide), fun hout => ?_⟩
  · rintro (hzero | hthree)
    · exact hrow hzero (by decide)
    · exact hrow hthree (by decide)
  · apply exec_refuses_of_outOfRange
    rw [operandsInRange_rocker_iff]
    omega

/-- Settles O24: bit 5 is the binary digit of 32. -/
theorem actionReadsBitFive : Obligations.ActionReadsBitFive := by
  refine ⟨formatB_of_format (o := .action) rfl fun _ => rfl, rfl, rfl, fun status s => ?_⟩
  have hanswer := exec_action_answers status s
  exact ⟨fun hset => actionOf_of_set hset ▸ hanswer, fun hclear => actionOf_of_clear hclear ▸ hanswer⟩

/-- Settles O25: a row of the table is one byte, and every byte outside it has no kind. -/
theorem cmdkindFollowsItsTable : Obligations.CmdkindFollowsItsTable := by
  refine ⟨formatB_of_format (o := .cmdkind) rfl fun _ => rfl, rfl, rfl, rfl, rfl, rfl, fun nibble s => ?_⟩
  have hrow {n : Byte} (h : nibble.toNat = n.toNat) :
      Answers (exec (.cmdkind nibble) s) s (.commandKind (kindOf n)) :=
    BitVec.eq_of_toNat_eq h ▸ exec_cmdkind_answers nibble s
  exact ⟨hrow (n := 1), hrow (n := 2), hrow (n := 3), hrow (n := 4),
    fun hnone => kindOf_eq_none hnone ▸ exec_cmdkind_answers nibble s⟩

/-- Settles O26: the answer is R75's dim time, which says the three cases. -/
theorem dimtimeConvertsToSeconds : Obligations.DimtimeConvertsToSeconds := by
  refine ⟨formatB_of_format (o := .dimtime) rfl fun _ => rfl, seconds_bytes, fun raw s => ?_⟩
  refine ⟨dimTimeOf raw, rfl, ?_⟩
  rw [dimTimeOf_toNat, seconds]
  split_ifs <;> omega

end Sys2Proof.Machine
end

section
/-! SUPPORT. One pass of PARSE's loop in the words of R154: the sync search finds R155's first sync byte, and each step of
the rule is one equation of the pass. -/

open Sys2Proof.Claims

namespace Sys2Proof.Machine

/-! ### The sync search (R155) -/

theorem toSync_of_noise {noise : List Byte} (rest : List Byte) (h : ∀ x ∈ noise, x ≠ syncByte) :
    toSync (noise ++ rest) = toSync rest :=
  List.dropWhile_append_of_pos fun x hx => bne_iff_ne.mpr (h x hx)

theorem at'_eq_sync_iff {b : List Byte} {k : Nat} (hk : k < b.length) : at' b k = 0x55 ↔ b[k] = syncByte := by
  rw [at', List.getD_eq_getElem _ _ hk, ← BitVec.toNat_inj]
  rfl

/-- The bytes in front of the first sync byte are none. -/
theorem ne_syncByte_of_mem_take {b : List Byte} {k : Nat} (h : ∀ j < k, at' b j ≠ 0x55) :
    ∀ x ∈ b.take k, x ≠ syncByte := by
  intro x hx hsync
  obtain ⟨j, hj, rfl⟩ := List.mem_take_iff_getElem.mp hx
  obtain ⟨hjk, hjb⟩ := lt_min_iff.mp hj
  exact h j hjk ((at'_eq_sync_iff hjb).mpr hsync)

theorem toSync_of_firstSync {b : List Byte} {k : Nat} (h : FirstSync b k) : toSync b = b.drop k := by
  obtain ⟨hk, hsync, hbefore⟩ := h
  have hdrop : b.drop k = syncByte :: b.drop (k + 1) := by
    rw [List.drop_eq_getElem_cons hk, (at'_eq_sync_iff hk).mp hsync]
  calc toSync b
    _ = toSync (b.take k ++ b.drop k) := by rw [List.take_append_drop]
    _ = toSync (b.drop k) := toSync_of_noise _ (ne_syncByte_of_mem_take hbefore)
    _ = b.drop k := by rw [hdrop, toSync_of_sync]

theorem toSync_of_no_sync {b : List Byte} (h : ∀ k < b.length, at' b k ≠ 0x55) : toSync b = [] := by
  have hnoise := ne_syncByte_of_mem_take h
  rw [List.take_length] at hnoise
  exact (congrArg toSync b.append_nil.symm).trans (toSync_of_noise [] hnoise)

theorem no_sync_or_firstSync (b : List Byte) : (∀ k < b.length, at' b k ≠ 0x55) ∨ ∃ k, FirstSync b k := by
  by_cases h : ∃ k, k < b.length ∧ at' b k = 0x55
  · obtain ⟨hlt, hsync⟩ := Nat.find_spec h
    exact .inr ⟨Nat.find h, hlt, hsync, fun j hj hjsync => Nat.find_min h hj ⟨hj.trans hlt, hjsync⟩⟩
  · exact .inl fun k hk hsync => h ⟨k, hk, hsync⟩

/-! ### The steps behind the search (R156 to R159) -/

section

variable {b : List Byte}

theorem exists_headerOf (long : 6 ≤ b.length) : ∃ h, headerOf b = some h :=
  Option.ne_none_iff_exists'.mp (mt (headerOf_eq_none_iff b).mp (Nat.not_lt.mpr long))

theorem passAligned_of_header {h : Header} (hb : headerOf b = some h) :
    passAligned b =
      if h.valid then
        if b.length < h.totalSize then .stop b
        else if bodyValid h b then .packet (b.take h.totalSize) (b.drop h.totalSize)
        else .resync (b.drop 1)
      else .resync (b.drop 1) := by
  rw [passAligned, hb]
  rfl

/-- Step (c). -/
theorem passAligned_of_short (short : b.length < 6) : passAligned b = .stop b := by
  rw [passAligned, (headerOf_eq_none_iff b).mpr short]

/-- Step (d). -/
theorem passAligned_of_badHeader (long : 6 ≤ b.length) (bad : ¬HeaderOk b) : passAligned b = .resync (b.drop 1) := by
  obtain ⟨h, hb⟩ := exists_headerOf long
  rw [headerOk_iff hb] at bad
  rw [passAligned_of_header hb, if_neg bad]

/-- Step (e). -/
theorem passAligned_of_waiting (long : 6 ≤ b.length) (ok : HeaderOk b) (wait : b.length < totalSize b) :
    passAligned b = .stop b := by
  obtain ⟨h, hb⟩ := exists_headerOf long
  rw [headerOk_iff hb] at ok
  rw [totalSize_of_headerOf hb] at wait
  rw [passAligned_of_header hb, if_pos ok, if_pos wait]

/-- Step (f). -/
theorem passAligned_of_badBody (long : 6 ≤ b.length) (ok : HeaderOk b) (whole : totalSize b ≤ b.length)
    (bad : ¬BodyOk b) : passAligned b = .resync (b.drop 1) := by
  obtain ⟨h, hb⟩ := exists_headerOf long
  rw [headerOk_iff hb] at ok
  rw [totalSize_of_headerOf hb] at whole
  rw [bodyOk_iff hb whole] at bad
  rw [passAligned_of_header hb, if_pos ok, if_neg whole.not_gt, if_neg bad]

/-- Step (g). -/
theorem passAligned_of_packet (long : 6 ≤ b.length) (ok : HeaderOk b) (whole : totalSize b ≤ b.length)
    (good : BodyOk b) : passAligned b = .packet (b.take (totalSize b)) (b.drop (totalSize b)) := by
  obtain ⟨h, hb⟩ := exists_headerOf long
  rw [headerOk_iff hb] at ok
  rw [totalSize_of_headerOf hb] at whole ⊢
  rw [bodyOk_iff hb whole] at good
  rw [passAligned_of_header hb, if_pos ok, if_neg whole.not_gt, if_pos good]

/-! ### The pass -/

theorem parsePass_of_short (short : b.length < 6) : parsePass b = .stop b := if_pos short

theorem parsePass_of_long (long : 6 ≤ b.length) : parsePass b = passAligned (toSync b) := if_neg (Nat.not_lt.mpr long)

theorem parsePass_of_firstSync {k : Nat} (long : 6 ≤ b.length) (f : FirstSync b k) :
    parsePass b = passAligned (b.drop k) := by
  rw [parsePass_of_long long, toSync_of_firstSync f]

theorem parsePass_of_no_sync (long : 6 ≤ b.length) (none : ∀ k < b.length, at' b k ≠ 0x55) :
    parsePass b = .stop [] := by
  rw [parsePass_of_long long, toSync_of_no_sync none]
  rfl

end

/-- A pass that accepts a packet removes the seven bytes of the smallest one, or more (R161). -/
theorem parsePass_packet_length {b p left : List Byte} (h : parsePass b = .packet p left) :
    left.length + 7 ≤ b.length := by
  rcases Nat.lt_or_ge b.length 6 with short | long
  · rw [parsePass_of_short short] at h
    cases h
  · rw [parsePass_of_long long] at h
    rcases passAligned_cases (toSync b) with ⟨-, e⟩ | ⟨_, -, -, e⟩ | ⟨_, -, -, -, e⟩ | ⟨_, -, -, -, -, e⟩ |
      ⟨g, -, -, hsize, -, e⟩ <;> rw [e] at h <;> cases h
    have hsync := toSync_length_le b
    rw [Header.totalSize_eq] at hsize ⊢
    rw [List.length_drop]
    omega

end Sys2Proof.Machine
end

section
/-! SUPPORT. PARSE's loop is the relation of R154, and the statements of 43_framer.md about the loop (R154, R161). -/

open Sys2Proof.Claims

namespace Sys2Proof.Machine

/-! ### The loop -/

/-- Whatever R154's loop does from a buffer is what the machine's loop does. -/
theorem parseBuffer_of_parses {n : Nat} {b left : List Byte} {out : List (List Byte)} (h : Parses n b out left) :
    parseBuffer b = (out, left) := by
  induction h with
  | guard short => exact parseBuffer_of_stop (parsePass_of_short short)
  | stepA long none => exact parseBuffer_of_stop (parsePass_of_no_sync long none)
  | stepC long f short =>
    exact parseBuffer_of_stop ((parsePass_of_firstSync long f).trans (passAligned_of_short short))
  | stepD long f long' bad _ ih =>
    rw [parseBuffer_of_resync ((parsePass_of_firstSync long f).trans (passAligned_of_badHeader long' bad)), ih]
  | stepE long f long' ok wait =>
    exact parseBuffer_of_stop ((parsePass_of_firstSync long f).trans (passAligned_of_waiting long' ok wait))
  | stepF long f long' ok whole bad _ ih =>
    rw [parseBuffer_of_resync ((parsePass_of_firstSync long f).trans (passAligned_of_badBody long' ok whole bad)), ih]
  | stepG long f long' ok whole good _ ih =>
    rw [parseBuffer_of_packet ((parsePass_of_firstSync long f).trans (passAligned_of_packet long' ok whole good)), ih]

/-- R154's loop ends from every buffer, after no more passes that continue than the buffer has bytes (R161). -/
theorem exists_parses (b : List Byte) : ∃ n out left, Parses n b out left ∧ n ≤ b.length := by
  induction hlen : b.length using Nat.strong_induction_on generalizing b with
  | _ len ih =>
    subst hlen
    rcases Nat.lt_or_ge b.length 6 with short | long
    · exact ⟨0, [], b, .guard short, Nat.zero_le _⟩
    rcases no_sync_or_firstSync b with none | ⟨k, f⟩
    · exact ⟨0, [], [], .stepA long none, Nat.zero_le _⟩
    have fewer (m : Nat) : ((b.drop k).drop (m + 1)).length < b.length := by
      rw [List.length_drop, List.length_drop]
      omega
    have again (m : Nat) := ih _ (fewer m) ((b.drop k).drop (m + 1)) rfl
    rcases Nat.lt_or_ge (b.drop k).length 6 with short | long'
    · exact ⟨0, [], b.drop k, .stepC long f short, Nat.zero_le _⟩
    obtain ⟨n, out, left, more, hn⟩ := again 0
    have hn' : n + 1 ≤ b.length := hn.trans_lt (fewer 0)
    by_cases ok : HeaderOk (b.drop k)
    · rcases Nat.lt_or_ge (b.drop k).length (totalSize (b.drop k)) with wait | whole
      · exact ⟨0, [], b.drop k, .stepE long f long' ok wait, Nat.zero_le _⟩
      by_cases good : BodyOk (b.drop k)
      · have hsize : totalSize (b.drop k) = totalSize (b.drop k) - 1 + 1 := by rw [totalSize]; omega
        obtain ⟨n, out, left, more, hn⟩ := again (totalSize (b.drop k) - 1)
        rw [← hsize] at more
        exact ⟨n + 1, _, left, .stepG long f long' ok whole good more, hn.trans_lt (fewer _)⟩
      · exact ⟨n + 1, out, left, .stepF long f long' ok whole good more, hn'⟩
    · exact ⟨n + 1, out, left, .stepD long f long' ok more, hn'⟩

/-- What the machine's loop does is what R154's loop does, within the buffer's length. -/
theorem parses_parseBuffer (b : List Byte) : ∃ n ≤ b.length, Parses n b (parseBuffer b).1 (parseBuffer b).2 := by
  obtain ⟨n, out, left, h, hn⟩ := exists_parses b
  exact ⟨n, hn, by rwa [parseBuffer_of_parses h]⟩

/-! ### The command -/

/-- Every opcode of format N obeys it (R81). -/
theorem formatN_of_format {o : Opcode} {i : Instr} (hf : o.format = .N) (hb : o.build 0 0 0 [] = i) :
    FormatN o.toByte i := by
  intro s a p q rest hport
  obtain ⟨hrun, hrefuse⟩ := step_of_holdsOpcode (holdsCommand_of_noStream (by rw [hf]; rfl) hport)
  have hclear : Format.N.reservedClear (be32 o.toByte a p q) = true ↔ a = 0 ∧ p = 0 ∧ q = 0 :=
    reservedClear_S_iff o.toByte a p q
  rw [hf, hclear] at hrun hrefuse
  refine ⟨fun hzero => ?_, hrefuse⟩
  obtain ⟨rfl, rfl, rfl⟩ := hzero
  rw [hrun ⟨rfl, rfl, rfl⟩, hb]

/-- PARSE on a state, whatever its result capacity (R154, R9). -/
theorem exec_parse (s : State) :
    AnswersLeaving (exec .parse s) s (parseBuffer s.buf).2
      (.packets (delivered s.config.resultCap s.buf (parseBuffer s.buf).1)) := rfl

/-- Under the capacity R9 decides, PARSE answers what its loop framed. -/
theorem exec_parse_of_parseBuffer {s : State} {out : List (List Byte)} {left : List Byte}
    (hcap : s.config.resultCap = none) (h : parseBuffer s.buf = (out, left)) :
    AnswersLeaving (exec .parse s) s left (.packets out) := by
  simpa [h, hcap] using exec_parse s

theorem delivered_spec (cap : Option Nat) (b : List Byte) (out : List (List Byte)) :
    Delivered cap out (delivered cap b out) := by
  cases cap with
  | none => exact ⟨fun _ => rfl, fun c hc => nomatch hc⟩
  | some c =>
    refine ⟨fun hfits => delivered_of_le b (hfits c rfl), ?_⟩
    rintro _ ⟨⟩ -
    exact ⟨delivered_length_le c b out, delivered_sublist _ b out⟩

/-- Settles O28: R154's loop ends from every buffer, and only as the machine's loop does. -/
theorem parseRunsTheLoop : Obligations.ParseRunsTheLoop := by
  refine ⟨formatN_of_format (o := .parse) rfl rfl, fun s hcap => ?_⟩
  have answers {n out left} (h : Parses n s.buf out left) : AnswersLeaving (exec .parse s) s left (.packets out) :=
    exec_parse_of_parseBuffer hcap (parseBuffer_of_parses h)
  obtain ⟨n, out, left, h, -⟩ := exists_parses s.buf
  exact ⟨⟨n, out, left, h, answers h⟩, fun _ _ _ h => answers h⟩

/-- Settles O35: a pass that continues leaves fewer bytes, so the bound of `|BUF|` passes is never reached. -/
theorem parsePassesAreBounded : Obligations.ParsePassesAreBounded := by
  refine ⟨fun b left h => (parsePass_shrinks b).1 left h, fun b p left h => parsePass_packet_length h,
    fun b fuel h => parseLoop_eq_parseBuffer fuel b h, fun s => ?_⟩
  obtain ⟨n, hn, h⟩ := parses_parseBuffer s.buf
  exact ⟨n, _, _, _, h, hn, delivered_spec _ _ _, exec_parse s⟩

end Sys2Proof.Machine
end

section
/-! SUPPORT. What R154's loop returns and leaves, by induction on the relation, and the statements of 43_framer.md about
it (R54, R158 to R160, R165, R169). -/

open Sys2Proof.Claims

namespace Sys2Proof.Machine

/-! ### The bytes left -/

/-- The three forms of a buffer that holds nothing for PARSE (R160). -/
def Unframed (b : List Byte) : Prop :=
  b = [] ∨ (0 < b.length ∧ b.length < 6) ∨ (6 ≤ b.length ∧ HeaderOk b ∧ b.length < totalSize b)

theorem unframed_of_short {b : List Byte} (short : b.length < 6) : Unframed b := by
  rcases b.length.eq_zero_or_pos with hnil | hpos
  · exact .inl (List.length_eq_zero_iff.mp hnil)
  · exact .inr (.inl ⟨hpos, short⟩)

theorem unframed_of_parses {n : Nat} {b left : List Byte} {out : List (List Byte)} (h : Parses n b out left) :
    Unframed left := by
  induction h with
  | guard short => exact unframed_of_short short
  | stepA => exact .inl rfl
  | stepC _ _ short => exact unframed_of_short short
  | stepE _ _ long' ok wait => exact .inr (.inr ⟨long', ok, wait⟩)
  | stepD _ _ _ _ _ ih => exact ih
  | stepF _ _ _ _ _ _ _ ih => exact ih
  | stepG _ _ _ _ _ _ _ ih => exact ih

theorem unframed_parseBuffer (b : List Byte) : Unframed (parseBuffer b).2 := by
  obtain ⟨n, -, h⟩ := parses_parseBuffer b
  exact unframed_of_parses h

theorem at'_lt (b : List Byte) (i : Nat) : at' b i < 256 := (b.getD i 0).isLt

/-- The largest packet is one byte longer: two bytes count the data, one the optional data. -/
theorem Unframed.length_le {b : List Byte} (h : Unframed b) : b.length ≤ 65796 := by
  rcases h with rfl | ⟨-, short⟩ | ⟨-, -, wait⟩
  · exact Nat.zero_le _
  · omega
  · have h1 := at'_lt b 1
    have h2 := at'_lt b 2
    have h3 := at'_lt b 3
    simp only [totalSize, BE16, Nat.reduceAdd] at wait
    omega

/-- A valid header whose packet has not fully arrived stops the loop, whatever stands behind it (R169). -/
theorem parseBuffer_of_waiting {b : List Byte} (long : 6 ≤ b.length) (ok : HeaderOk b)
    (wait : b.length < totalSize b) : parseBuffer b = ([], b) := by
  have first : FirstSync b 0 := ⟨by omega, ok.1, fun j hj => absurd hj (Nat.not_lt_zero j)⟩
  exact parseBuffer_of_parses (.stepE long first long ok wait)

/-- The three forms are exactly those PARSE leaves as they are. -/
theorem parseBuffer_of_unframed {b : List Byte} (h : Unframed b) : parseBuffer b = ([], b) := by
  rcases h with rfl | ⟨-, short⟩ | ⟨long, ok, wait⟩
  · rfl
  · exact parseBuffer_of_stop (parsePass_of_short short)
  · exact parseBuffer_of_waiting long ok wait

/-- Settles O31: each exit of R154's loop leaves one of the three forms. -/
theorem bufferAfterParse : Obligations.BufferAfterParse := by
  intro s
  have h := unframed_parseBuffer s.buf
  exact ⟨_, exec_parse s, h.length_le, h⟩

/-- Settles O39: the loop takes its exit (e) on the first pass. -/
theorem falseHeaderStallsParse : Obligations.FalseHeaderStallsParse := by
  intro s long ok wait
  exact execParse_of_parseBuffer (parseBuffer_of_waiting long ok wait)

/-- The bytes of a count that fits a u32 are its four digits to the base 256, most significant first (R88). -/
theorem size_bytes {n : Nat} (hn : n < 2 ^ 32) :
    ∃ b0 b1 b2 b3 : Byte, (Response.size n).bytes = some [b0, b1, b2, b3] ∧
      n = b0.toNat * 2 ^ 24 + b1.toNat * 2 ^ 16 + b2.toNat * 2 ^ 8 + b3.toNat := by
  have hbytes : (Response.size n).bytes = some (bytes32 (BitVec.ofNat 32 n)) := if_pos hn
  have hword : (BitVec.ofNat 32 n).toNat = n := Nat.mod_eq_of_lt hn
  rw [bytes32_eq] at hbytes
  exact ⟨_, _, _, _, hbytes, by rw [← be32_toNat, be32_fields, hword]⟩

/-- Settles O30: the length answered is that of the buffer PARSE left. -/
theorem bufsizeAnswersTheLength : Obligations.BufsizeAnswersTheLength := by
  refine ⟨formatN_of_format (o := .bufsize) rfl rfl, fun n hn => size_bytes hn, fun _ => rfl, ?_⟩
  rintro s _ _ ⟨⟩ ⟨⟩
  exact ⟨_, rfl, (unframed_parseBuffer s.buf).length_le⟩

/-! ### The packets returned -/

/-- The packets PARSE answers are among those its loop framed, in order (R54, R158). -/
theorem exec_parse_packets {s t : State} {ps : List (List Byte)} (ht : exec .parse s = .next t)
    (hps : t.answer = some (.response (.packets ps))) :
    ps.Sublist (parseBuffer s.buf).1 ∧ t.buf = (parseBuffer s.buf).2 := by
  cases ht
  cases hps
  exact ⟨delivered_sublist _ _ _, rfl⟩

/-- Settles O33: what is answered was framed, and what is framed passed the packet check. -/
theorem parseReturnsOnlyPackets : Obligations.ParseReturnsOnlyPackets := by
  intro s t ps ht hps p hp
  obtain ⟨hsub, -⟩ := exec_parse_packets ht hps
  exact (isPacket_iff_accepted p).mpr (parseBuffer_accepted s.buf p (hsub.subset hp))

theorem contiguous_append {ps : List (List Byte)} {b left : List Byte} (gap : List Byte) (h : Contiguous ps b left) :
    Contiguous ps (gap ++ b) left := by
  cases ps with
  | nil =>
    obtain ⟨gap', rfl⟩ := h
    exact ⟨gap ++ gap', (List.append_assoc ..).symm⟩
  | cons p ps =>
    obtain ⟨gap', rest, rfl, hrest⟩ := h
    exact ⟨gap ++ gap', rest, by simp only [List.append_assoc], hrest⟩

/-- A packet that is left out becomes part of the gap. -/
theorem contiguous_of_sublist {ps qs : List (List Byte)} {b left : List Byte} (hsub : qs.Sublist ps)
    (h : Contiguous ps b left) : Contiguous qs b left := by
  induction hsub generalizing b with
  | slnil => exact h
  | cons p _ ih =>
    obtain ⟨gap, rest, rfl, hrest⟩ := h
    exact contiguous_append (gap ++ p) (ih hrest)
  | cons_cons p _ ih =>
    obtain ⟨gap, rest, hb, hrest⟩ := h
    exact ⟨gap, rest, hb, ih hrest⟩

theorem contiguous_of_parses {n : Nat} {b left : List Byte} {out : List (List Byte)} (h : Parses n b out left) :
    Contiguous out b left := by
  have dropped {out left} (b : List Byte) (k : Nat) (h : Contiguous out (b.drop k) left) : Contiguous out b left := by
    simpa using contiguous_append (b.take k) h
  have stays (b : List Byte) : Contiguous [] b b := ⟨[], rfl⟩
  induction h with
  | guard => exact stays _
  | @stepA b => exact ⟨b, b.append_nil.symm⟩
  | stepC => exact dropped _ _ (stays _)
  | stepE => exact dropped _ _ (stays _)
  | stepD _ _ _ _ _ ih => exact dropped _ _ (dropped _ 1 ih)
  | stepF _ _ _ _ _ _ _ ih => exact dropped _ _ (dropped _ 1 ih)
  | stepG _ _ _ _ _ _ _ ih => exact dropped _ _ ⟨[], _, (List.take_append_drop _ _).symm, ih⟩

/-- Settles O34: each pass takes a gap off the front, or a gap and a packet behind it. -/
theorem parseKeepsStreamOrder : Obligations.ParseKeepsStreamOrder := by
  intro s t ps ht hps
  obtain ⟨hsub, hleft⟩ := exec_parse_packets ht hps
  obtain ⟨n, -, h⟩ := parses_parseBuffer s.buf
  rw [hleft]
  exact contiguous_of_sublist hsub (contiguous_of_parses h)

end Sys2Proof.Machine
end

section
/-! SUPPORT. PARSE's loop on a buffer with bytes behind it or noise in front of it, feeding a stream in chunks, and the
statements of 43_framer.md about them (R157, R166, R167). -/

open Sys2Proof.Claims

namespace Sys2Proof.Machine

/-! ### Bytes behind the buffer -/

/-- What a pass decides with `more` bytes behind what it left. -/
def Pass.behind (more : List Byte) : Pass → Pass
  | .stop left => .stop (left ++ more)
  | .resync left => .resync (left ++ more)
  | .packet p left => .packet p (left ++ more)

/-- A pass that continues has read all it decides on: bytes behind change nothing of it. -/
theorem passAligned_append {b : List Byte} (more : List Byte) (h : passAligned b ≠ .stop b) :
    passAligned (b ++ more) = (passAligned b).behind more := by
  cases hb : headerOf b with
  | none => exact absurd (by rw [passAligned, hb]) h
  | some g =>
    have hpos : 1 ≤ b.length := by
      obtain ⟨t, rfl⟩ := headerOf_eq_some hb
      simp
    have hdrop : (b ++ more).drop 1 = b.drop 1 ++ more := List.drop_append_of_le_length hpos
    rw [passAligned_of_header hb] at h ⊢
    rw [passAligned_of_header (headerOf_append more hb), hdrop]
    by_cases hvalid : g.valid = true
    · rw [if_pos hvalid] at h
      rw [if_pos hvalid, if_pos hvalid]
      have hwhole : ¬b.length < g.totalSize := fun hwait => h (if_pos hwait)
      have hsize : g.totalSize ≤ b.length := Nat.not_lt.mp hwhole
      have hwhole' : ¬(b ++ more).length < g.totalSize := by
        rw [List.length_append]
        omega
      rw [if_neg hwhole, if_neg hwhole', bodyValid_append more hsize, List.take_append_of_le_length hsize,
        List.drop_append_of_le_length hsize]
      split <;> rfl
    · rw [if_neg hvalid, if_neg hvalid]
      rfl

/-- A whole pass likewise. -/
theorem parsePass_append {b : List Byte} (more : List Byte) (h : ∀ left, parsePass b ≠ .stop left) :
    parsePass (b ++ more) = (parsePass b).behind more := by
  rcases Nat.lt_or_ge b.length 6 with short | long
  · exact absurd (parsePass_of_short short) (h b)
  have long' : 6 ≤ (b ++ more).length := long.trans (by simp)
  rw [parsePass_of_long long] at h ⊢
  have hsync : toSync b ≠ [] := fun hnil => h [] (by rw [hnil]; rfl)
  rw [parsePass_of_long long', toSync_append_of_ne_nil more hsync, passAligned_append more (h _)]

/-! ### Noise in front of the buffer -/

section

variable {noise : List Byte} (hnoise : ∀ x ∈ noise, x ≠ syncByte)
include hnoise

/-- A pass on six bytes or more sees nothing of the noise in front of them (R155). -/
theorem parsePass_of_noise {b : List Byte} (long : 6 ≤ b.length) : parsePass (noise ++ b) = parsePass b := by
  have long' : 6 ≤ (noise ++ b).length := long.trans (by simp)
  rw [parsePass_of_long long, parsePass_of_long long', toSync_of_noise b hnoise]

/-- Noise in front changes nothing of the packets framed. It can change the bytes left: it lets fewer than six behind it
past the loop's guard and into the sync search (R154 corner case 1). -/
theorem parseBuffer_fst_of_noise (b : List Byte) : (parseBuffer (noise ++ b)).1 = (parseBuffer b).1 := by
  rcases Nat.lt_or_ge b.length 6 with short | long
  · have hstop : ∃ left, parsePass (noise ++ b) = .stop left := by
      rcases Nat.lt_or_ge (noise ++ b).length 6 with short' | long'
      · exact ⟨_, parsePass_of_short short'⟩
      · have hsync : (toSync b).length < 6 := (toSync_length_le b).trans_lt short
        rw [parsePass_of_long long', toSync_of_noise b hnoise]
        exact ⟨_, passAligned_of_short hsync⟩
    obtain ⟨left, hleft⟩ := hstop
    rw [parseBuffer_of_stop hleft, parseBuffer_of_stop (parsePass_of_short short)]
  · rw [parseBuffer_eq, parsePass_of_noise hnoise long, ← parseBuffer_eq]

end

/-- Settles O36: the pass does not see the noise, and slices out the packet in front of the rest. -/
theorem firstPacketIsReturnedWhole : Obligations.FirstPacketIsReturnedWhole := by
  intro s noise p r hcap hnoise hp
  have haccepted := (isPacket_iff_accepted p).mp hp
  have long : 6 ≤ (p ++ r).length := hp.1.trans (by simp)
  have hpass : parsePass (noise ++ p ++ r) = .packet p r := by
    rw [List.append_assoc, parsePass_of_noise hnoise long, parsePass_of_accepted r haccepted]
  exact ⟨_, _, exec_parse_of_parseBuffer (s := { s with buf := r }) hcap rfl,
    exec_parse_of_parseBuffer (s := { s with buf := noise ++ p ++ r }) hcap (parseBuffer_of_packet hpass)⟩

/-! ### Chunks -/

/-- The bytes an exit of the loop dropped were noise. -/
theorem exists_noise_of_stop {b left : List Byte} (h : parsePass b = .stop left) :
    ∃ noise, b = noise ++ left ∧ ∀ x ∈ noise, x ≠ syncByte := by
  rcases Nat.lt_or_ge b.length 6 with short | long
  · rw [parsePass_of_short short] at h
    cases h
    exact ⟨[], rfl, fun x hx => nomatch hx⟩
  · rw [parsePass_of_long long] at h
    obtain rfl := passAligned_stop_eq h
    refine ⟨b.takeWhile (· != syncByte), List.takeWhile_append_dropWhile.symm, fun x hx => ?_⟩
    exact bne_iff_ne.mp (List.mem_takeWhile_imp (p := (· != syncByte)) hx)

/-- The packets framed from a buffer with `more` behind it are those framed from the buffer, and then those framed from
what that leaves with `more` behind it. -/
theorem parseBuffer_fst_append (b more : List Byte) :
    (parseBuffer (b ++ more)).1 = (parseBuffer b).1 ++ (parseBuffer ((parseBuffer b).2 ++ more)).1 := by
  induction b using parse_induction with
  | pass b resync packet =>
    cases hp : parsePass b with
    | stop left =>
      obtain ⟨noise, rfl, hnoise⟩ := exists_noise_of_stop hp
      rw [parseBuffer_of_stop hp, List.append_assoc, parseBuffer_fst_of_noise hnoise]
      rfl
    | resync left =>
      have hmore : parsePass (b ++ more) = .resync (left ++ more) := by
        rw [parsePass_append more (by simp [hp]), hp]
        rfl
      rw [parseBuffer_of_resync hp, parseBuffer_of_resync hmore, resync left hp]
    | packet p left =>
      have hmore : parsePass (b ++ more) = .packet p (left ++ more) := by
        rw [parsePass_append more (by simp [hp]), hp]
        rfl
      rw [parseBuffer_of_packet hp, parseBuffer_of_packet hmore, packet p left hp]
      rfl

/-- The block after a chunk and a PARSE, where the capacities are unbounded. -/
def State.afterFeed (s : State) (d : List Byte) : State :=
  { s with
    buf := (parseBuffer (s.buf ++ d)).2
    answer := some (.response (.packets (parseBuffer (s.buf ++ d)).1)) }

/-- ADDDATA under a capacity it does not exceed (R150). -/
theorem exec_adddata_of_fits {s : State} {d : List Byte}
    (hfits : ∀ c, s.config.bufCap = some c → s.buf.length + d.length ≤ c) :
    AnswersLeaving (exec (.adddata d) s) s (s.buf ++ d) .ack := if_pos ((fitsCapacity_iff _ _).mpr hfits)

section

variable {s : State} (hs : s.config = Config.unbounded)
include hs

/-- One chunk of a run without capacities: no fault, and every packet framed is returned. -/
theorem fed_cons {d : List Byte} {ds out : List (List Byte)} {t : State} (more : Fed (s.afterFeed d) ds out t) :
    Fed s (d :: ds) ((parseBuffer (s.buf ++ d)).1 ++ out) t := by
  have hadd := exec_adddata_of_fits (s := s) (d := d) (by simp [hs, Config.unbounded])
  have hcap : s.config.resultCap = none := by rw [hs]; rfl
  exact .chunk hadd (exec_parse_of_parseBuffer (s := { s with buf := s.buf ++ d, answer := _ }) hcap rfl) rfl more

theorem fed_singleton (d : List Byte) : Fed s [d] (parseBuffer (s.buf ++ d)).1 (s.afterFeed d) := by
  simpa using fed_cons hs (.done (s.afterFeed d))

end

/-- A run that feeds chunks returns what the whole stream behind the buffer frames to; without a chunk there is no PARSE,
so then the buffer must frame to nothing. -/
theorem exists_fed {s : State} (hs : s.config = Config.unbounded) {chunks : List (List Byte)}
    (hnil : chunks = [] → (parseBuffer s.buf).1 = []) :
    ∃ t, Fed s chunks (parseBuffer (s.buf ++ chunks.flatten)).1 t := by
  induction chunks generalizing s with
  | nil =>
    rw [List.flatten_nil, List.append_nil, hnil rfl]
    exact ⟨s, .done s⟩
  | cons d ds ih =>
    have hleft : (parseBuffer (s.afterFeed d).buf).1 = [] := congrArg Prod.fst (parseBuffer_left (s.buf ++ d))
    obtain ⟨t, ht⟩ := ih (s := s.afterFeed d) hs fun _ => hleft
    rw [List.flatten_cons, ← List.append_assoc, parseBuffer_fst_append]
    exact ⟨t, fed_cons hs ht⟩

/-- Settles O37: both runs return what the buffer and the stream behind it frame to. -/
theorem splitFeedingReturnsTheSamePackets : Obligations.SplitFeedingReturnsTheSamePackets := by
  intro s chunks hs hne
  obtain ⟨t, ht⟩ := exists_fed hs fun hnil => absurd hnil hne
  exact ⟨_, t, _, ht, fed_singleton hs chunks.flatten⟩

/-- The front of a packet holds nothing for PARSE: its header, once it is there, declares more bytes (R167). -/
theorem unframed_of_front {front back : List Byte} (hp : IsPacket (front ++ back)) (hback : back ≠ []) :
    Unframed front := by
  rcases Nat.lt_or_ge front.length 6 with short | long
  · exact unframed_of_short short
  obtain ⟨-, hheader, hsize, -⟩ := (isPacket_iff _).mp hp
  obtain ⟨h, hfront⟩ := exists_headerOf long
  have hwhole := headerOf_append back hfront
  have hmissing : 0 < back.length := List.length_pos_iff.mpr hback
  refine .inr (.inr ⟨long, (headerOk_iff hfront).mpr ((headerOk_iff hwhole).mp hheader), ?_⟩)
  rw [List.length_append, totalSize_of_headerOf hwhole, ← totalSize_of_headerOf hfront] at hsize
  omega

/-- Settles O38: the front stays in the buffer, where the remaining bytes make it the packet. -/
theorem partialFrameYieldsOnePacketLater : Obligations.PartialFrameYieldsOnePacketLater := by
  intro s front back hs hempty hp hback
  have hfront : parseBuffer (s.buf ++ front) = ([], front) := by
    rw [hempty]
    exact parseBuffer_of_unframed (unframed_of_front hp hback)
  have hbuf : (s.afterFeed front).buf = front := congrArg Prod.snd hfront
  have hwhole : parseBuffer ((s.afterFeed front).buf ++ back) = ([front ++ back], []) := by
    rw [hbuf]
    simpa using parseBuffer_flatten (ps := [front ++ back]) (by simpa using (isPacket_iff_accepted _).mp hp)
  have hfed := fed_singleton hs front
  have hfed' := fed_singleton (s := s.afterFeed front) hs back
  rw [hfront] at hfed
  rw [hwhole] at hfed'
  exact ⟨_, _, hfed, hbuf, hfed', congrArg Prod.snd hwhole⟩

end Sys2Proof.Machine
end

section
/-! SUPPORT. The statements of 43_framer.md about ADDDATA and CLRBUF and about the byte streams of R168 (R150, R152, R163,
R168). -/

open Sys2Proof.Claims

namespace Sys2Proof.Machine

/-- Settles O27: the capacity test decides which of the two ends ADDDATA has. -/
theorem adddataAppendsOrOverflows : Obligations.AdddataAppendsOrOverflows := by
  refine ⟨formatS_of_format (o := .adddata) rfl fun _ => rfl, rfl, fun d s => ⟨exec_adddata_of_fits, ?_⟩⟩
  intro c hc hover
  exact if_neg fun hfits => hover.not_ge ((fitsCapacity_iff _ _).mp hfits c hc)

/-- Settles O29: CLRBUF writes the buffer and the answer and no mark. -/
theorem clrbufEmptiesTheBuffer : Obligations.ClrbufEmptiesTheBuffer :=
  ⟨formatN_of_format (o := .clrbuf) rfl rfl, fun _ => rfl⟩

/-- Settles O40: each clean stream is two packets, one behind the other; on the two flipped ones the loop is run. -/
theorem resyncCounterexamples : Obligations.ResyncCounterexamples := by
  intro s hs
  have parses {b left : List Byte} {out : List (List Byte)} (h : parseBuffer b = (out, left)) :
      AnswersLeaving (exec .parse { s with buf := b }) s left (.packets out) :=
    exec_parse_of_parseBuffer (s := { s with buf := b }) (by rw [hs]; rfl) h
  have packets {b : List Byte} {out : List (List Byte)} (hb : b = out.flatten) (hout : ∀ p ∈ out, accepted p = true) :
      parseBuffer b = (out, []) := by
    rw [hb, parseBuffer_flatten hout]
  refine ⟨parses (packets rfl ?_), parses ?_, parses (packets rfl ?_), parses ?_⟩ <;> decide +kernel

end Sys2Proof.Machine
end

section
/-! SUPPORT. The telegram of R181 by index, the profile it is decoded by, and the statements of 44_decoder.md about
TELEGRAM, DETECT and PKTCLASS (R180 to R190, R205). -/

open Sys2Proof.Claims

namespace Sys2Proof.Machine

/-! ### Reads inside a sequence -/

theorem bufRead_of_lt {b : List Byte} {i : Nat} (h : i < b.length) : bufRead b i = some (b.getD i 0) := by
  rw [bufRead_eq, List.getElem?_eq_getElem h, List.getD_eq_getElem _ _ h]

/-- Four bytes that stand in the sequence are read as the word `BE32` counts (R12). -/
theorem exists_be32At {b : List Byte} {i : Nat} (h : i + 4 ≤ b.length) :
    ∃ w, be32At b i = some w ∧ w.toNat = BE32 b i := by
  have hdrop : b.drop i = b[i] :: b[i + 1] :: b[i + 2] :: b[i + 3] :: b.drop (i + 4) := by
    rw [List.drop_eq_getElem_cons, List.drop_eq_getElem_cons, List.drop_eq_getElem_cons, List.drop_eq_getElem_cons]
  refine ⟨be32 b[i] b[i + 1] b[i + 2] b[i + 3], by rw [be32At, hdrop], ?_⟩
  rw [be32_toNat, BE32, at', at', at', at', List.getD_eq_getElem, List.getD_eq_getElem, List.getD_eq_getElem,
    List.getD_eq_getElem]

/-! ### The regions of a packet (R159) -/

section

variable {b : List Byte} {h : Header}

theorem packetData_eq (hb : headerOf b = some h) : packetData h b = dataOf b := by
  obtain ⟨t, rfl⟩ := headerOf_eq_some hb
  rw [dataOf, slice, List.drop_take, Nat.add_sub_cancel_left]
  rfl

theorem packetOpt_eq (hb : headerOf b = some h) : packetOpt h b = optOf b := by
  obtain ⟨t, rfl⟩ := headerOf_eq_some hb
  rw [optOf, slice, List.drop_take, Nat.add_sub_cancel_left]
  rfl

end

theorem dataOf_length {d : List Byte} (hd : IsPacket d) : (dataOf d).length = BE16 d 1 := by
  obtain ⟨-, -, -, hsize, -⟩ := hd
  rw [dataOf, slice, List.length_drop, List.length_take]
  omega

theorem optOf_length {d : List Byte} (hd : IsPacket d) : (optOf d).length = at' d 3 := by
  obtain ⟨-, -, -, hsize, -⟩ := hd
  rw [optOf, slice, List.length_drop, List.length_take]
  omega

/-! ### The telegram's fields -/

/-- The fields the optional region gives, by index (R68, R69). -/
def OptionalFields (o : List Byte) (t : Telegram) : Prop :=
  (7 ≤ o.length →
    t.subTelNum.map BitVec.toNat = some (at' o 0) ∧ t.destinationId.map BitVec.toNat = some (BE32 o 1) ∧
    t.dBm = -(at' o 5 : Int) ∧ t.securityLevel.map BitVec.toNat = some (at' o 6)) ∧
  (o.length < 7 → t.subTelNum = none ∧ t.destinationId = none ∧ t.dBm = -100 ∧ t.securityLevel = none)

theorem optionalFields_withOptional (t : Telegram) (o : List Byte) : OptionalFields o (t.withOptional o) := by
  match o with
  | [] | [_] | [_, _] | [_, _, _] | [_, _, _, _] | [_, _, _, _, _] | [_, _, _, _, _, _] =>
    exact ⟨fun hlong => absurd hlong (by simp), fun _ => ⟨rfl, rfl, rfl, rfl⟩⟩
  | o0 :: o1 :: o2 :: o3 :: o4 :: o5 :: o6 :: rest =>
    refine ⟨fun _ => ⟨rfl, congrArg some (be32_toNat o1 o2 o3 o4), rfl, rfl⟩, fun hshort => ?_⟩
    simp only [List.length_cons] at hshort
    omega

/-- The optional region writes none of the data region's fields. -/
theorem Telegram.withOptional_frame (t : Telegram) (o : List Byte) :
    (t.withOptional o).rorg = t.rorg ∧ (t.withOptional o).payload = t.payload ∧
      (t.withOptional o).senderId = t.senderId ∧ (t.withOptional o).status = t.status := by
  unfold Telegram.withOptional
  split <;> exact ⟨rfl, rfl, rfl, rfl⟩

/-- The fields the data region gives, by index (R66, R67). -/
def DataFields (d : List Byte) (t : Telegram) : Prop :=
  t.rorg.toNat = at' d 0 ∧ t.payload = slice d 1 (d.length - 5) ∧ t.senderId.toNat = BE32 d (d.length - 5) ∧
    t.status.toNat = at' d (d.length - 1)

/-- A data region with room for RORG, id and status gives a telegram. -/
theorem exists_telegramIn {d : List Byte} (o : List Byte) (hd : 6 ≤ d.length) :
    ∃ t, telegramIn d o = some t ∧ DataFields d t ∧ OptionalFields o t := by
  obtain ⟨sender, hsender, hvalue⟩ := exists_be32At (b := d) (i := d.length - 5) (by omega)
  rw [telegramIn, if_neg (by omega), bufRead_of_lt (by omega), hsender, bufRead_of_lt (by omega)]
  refine ⟨_, rfl, ?_, optionalFields_withOptional _ o⟩
  obtain ⟨hrorg, hpayload, hid, hstatus⟩ := Telegram.withOptional_frame _ o
  rw [DataFields, hrorg, hpayload, hid, hstatus, slice, List.drop_take]
  exact ⟨rfl, rfl, hvalue, rfl⟩

theorem isTelegramOf_iff {d : List Byte} (hd : IsPacket d) (t : Telegram) :
    IsTelegramOf d t ↔ DataFields (dataOf d) t ∧ OptionalFields (optOf d) t := by
  simp only [IsTelegramOf, DataFields, OptionalFields, dataOf_length hd, optOf_length hd, and_assoc]

theorem option_eq_of_map_toNat {w : Nat} {x y : Option (BitVec w)} {n : Option Nat} (hx : x.map BitVec.toNat = n)
    (hy : y.map BitVec.toNat = n) : x = y :=
  Option.map_injective BitVec.toNat_injective (hx.trans hy.symm)

/-- The optional region leaves no choice of its fields: each is given by its value, or absent. -/
theorem optionalFields_unique {o : List Byte} {t u : Telegram} (ht : OptionalFields o t) (hu : OptionalFields o u) :
    t.subTelNum = u.subTelNum ∧ t.destinationId = u.destinationId ∧ t.dBm = u.dBm ∧
      t.securityLevel = u.securityLevel := by
  rcases Nat.lt_or_ge o.length 7 with hshort | hlong
  · obtain ⟨hsub, hdest, hdBm, hlevel⟩ := ht.2 hshort
    obtain ⟨hsub', hdest', hdBm', hlevel'⟩ := hu.2 hshort
    exact ⟨hsub.trans hsub'.symm, hdest.trans hdest'.symm, hdBm.trans hdBm'.symm, hlevel.trans hlevel'.symm⟩
  · obtain ⟨hsub, hdest, hdBm, hlevel⟩ := ht.1 hlong
    obtain ⟨hsub', hdest', hdBm', hlevel'⟩ := hu.1 hlong
    exact ⟨option_eq_of_map_toNat hsub hsub', option_eq_of_map_toNat hdest hdest', hdBm.trans hdBm'.symm,
      option_eq_of_map_toNat hlevel hlevel'⟩

/-- The fields of R181 leave no choice of the telegram. -/
theorem isTelegramOf_unique {d : List Byte} {t u : Telegram} (hd : IsPacket d) (ht : IsTelegramOf d t)
    (hu : IsTelegramOf d u) : t = u := by
  obtain ⟨⟨hrorg, hpayload, hsender, hstatus⟩, hopt⟩ := (isTelegramOf_iff hd t).mp ht
  obtain ⟨⟨hrorg', hpayload', hsender', hstatus'⟩, hopt'⟩ := (isTelegramOf_iff hd u).mp hu
  obtain ⟨hsub, hdest, hdBm, hlevel⟩ := optionalFields_unique hopt hopt'
  cases t
  cases u
  rw [Telegram.mk.injEq]
  exact ⟨BitVec.toNat_injective (hrorg.trans hrorg'.symm), BitVec.toNat_injective (hsender.trans hsender'.symm), hdest,
    BitVec.toNat_injective (hstatus.trans hstatus'.symm), hsub, hdBm, hlevel, hpayload.trans hpayload'.symm⟩

/-! ### The telegram of a packet -/

section

variable {d : List Byte}

theorem exists_headerOf_of_isPacket (hd : IsPacket d) : ∃ h, headerOf d = some h ∧ h.packetType.toNat = at' d 4 := by
  obtain ⟨h, hb⟩ := exists_headerOf hd.1
  obtain ⟨t, rfl⟩ := headerOf_eq_some hb
  exact ⟨h, hb, rfl⟩

/-- The machine's telegram of a packet: that of its two regions for a RADIO packet, else none (R181). -/
theorem telegramOf_of_isPacket (hd : IsPacket d) :
    telegramOf d = if at' d 4 = 0x01 then telegramIn (dataOf d) (optOf d) else none := by
  obtain ⟨h, hb, htype⟩ := exists_headerOf_of_isPacket hd
  rw [telegramOf, hb, ← htype]
  simp only [packetData_eq hb, packetOpt_eq hb, beq_iff_eq, ← BitVec.toNat_inj]
  rfl

theorem telegramOf_eq_none (hd : IsPacket d) (hnone : ¬HasTelegram d) : telegramOf d = none := by
  rw [telegramOf_of_isPacket hd]
  split
  next hradio =>
    have hshort : (dataOf d).length < 6 := by
      rw [dataOf_length hd]
      exact Nat.lt_of_not_ge fun hlong => hnone ⟨hradio, hlong⟩
    exact if_pos hshort
  next => rfl

theorem exists_telegramOf (hd : IsPacket d) (hhas : HasTelegram d) :
    ∃ t, telegramOf d = some t ∧ IsTelegramOf d t := by
  obtain ⟨hradio, hlong⟩ := hhas
  obtain ⟨t, ht, hfields⟩ := exists_telegramIn (d := dataOf d) (optOf d) (by rwa [dataOf_length hd])
  exact ⟨t, by rw [telegramOf_of_isPacket hd, if_pos hradio, ht], (isTelegramOf_iff hd t).mpr hfields⟩

/-- The telegram R181 describes is the machine's. -/
theorem telegramOf_eq_some (hd : IsPacket d) (hhas : HasTelegram d) {t : Telegram} (ht : IsTelegramOf d t) :
    telegramOf d = some t := by
  obtain ⟨u, hu, hfields⟩ := exists_telegramOf hd hhas
  rw [hu, isTelegramOf_unique hd ht hfields]

end

/-! ### Profiles and classes -/

theorem kindOf_isSome_iff (n : Byte) : (kindOf n).isSome = true ↔ 1 ≤ n.toNat ∧ n.toNat ≤ 4 := by
  constructor
  · intro hsome
    by_contra hout
    rw [kindOf_eq_none (by omega)] at hsome
    cases hsome
  · rintro ⟨hlow, hhigh⟩
    obtain h | h | h | h : n = 1 ∨ n = 2 ∨ n = 3 ∨ n = 4 := by bv_omega
    all_goals rw [h]; rfl

/-- The machine's detection is R188's. -/
theorem detectProfile_eq (t : Telegram) : detectProfile t = profileOf t := by
  have hrps : t.rorg == rorgRps ↔ t.rorg.toNat = 0xF6 := by rw [beq_iff_eq, ← BitVec.toNat_inj]; rfl
  have hvld : t.rorg == rorgVld ↔ t.rorg.toNat = 0xD2 := by rw [beq_iff_eq, ← BitVec.toNat_inj]; rfl
  simp only [detectProfile, profileOf, hrps, hvld]
  by_cases h : t.rorg.toNat = 0xD2
  · cases hp : t.payload with
    | nil => simp [h]
    | cons p0 tail => simp [h, kindOf_isSome_iff, hiNib_toNat, at']
  · simp [h]

/-- The machine's class of a packet is that of the type code at offset 4 (R64). -/
theorem packetClassOf_of_isPacket {d : List Byte} (hd : IsPacket d) :
    packetClassOf d =
      if at' d 4 = 1 then .radio else if at' d 4 = 2 then .response else if at' d 4 = 4 then .event else .other := by
  obtain ⟨h, hb, htype⟩ := exists_headerOf_of_isPacket hd
  rw [packetClassOf, hb, ← htype]
  simp only [classOf, beq_iff_eq, ← BitVec.toNat_inj]
  rfl

/-! ### The commands -/

/-- A decoder command on anything but an accepted packet is refused (R180). -/
theorem exec_refuses_of_not_isPacket {i : Instr} {d : List Byte} (s : State) (hrange : operandsInRange i = true)
    (hi : i = .telegram d ∨ i = .detect d ∨ (∃ c, i = .decode c d) ∨ i = .pktclass d) (hd : ¬IsPacket d) :
    Refuses (exec i s) s (.notAPacket i.commandWord (lengthWord d)) := by
  rw [isPacket_iff_accepted, Bool.not_eq_true] at hd
  exact exec_notPacket i s hrange hi hd

section

variable {d : List Byte} (s : State) (hd : IsPacket d)

include hd

theorem exec_telegram_answers : Answers (exec (.telegram d) s) s (.telegram (telegramOf d)) :=
  checkPacket_of_accepted _ s _ ((isPacket_iff_accepted d).mp hd)

theorem exec_detect_answers : Answers (exec (.detect d) s) s (.profile ((telegramOf d).bind detectProfile)) :=
  checkPacket_of_accepted _ s _ ((isPacket_iff_accepted d).mp hd)

theorem exec_pktclass_answers : Answers (exec (.pktclass d) s) s (.packetClass (packetClassOf d)) :=
  checkPacket_of_accepted _ s _ ((isPacket_iff_accepted d).mp hd)

end

/-- Settles O43: the regions the machine reads are R159's, and their fields by index are those R181 names. -/
theorem telegramViewsTheDataRegion : Obligations.TelegramViewsTheDataRegion := by
  refine ⟨formatS_of_format (o := .telegram) rfl fun _ => rfl, fun d s => ⟨?_, fun hd hhas => ?_, fun hd hnone => ?_⟩⟩
  · exact exec_refuses_of_not_isPacket s rfl (.inl rfl)
  · obtain ⟨t, ht, hfields⟩ := exists_telegramOf hd hhas
    exact ⟨t, hfields, ht ▸ exec_telegram_answers s hd⟩
  · exact telegramOf_eq_none hd hnone ▸ exec_telegram_answers s hd

/-- Settles O44: the telegram is the only one R181 describes, and the machine's detection is R188's. -/
theorem detectFollowsTheRorg : Obligations.DetectFollowsTheRorg := by
  refine ⟨formatS_of_format (o := .detect) rfl fun _ => rfl, rfl, rfl, rfl, fun d s => ⟨?_, ?_, fun hd hnone => ?_⟩⟩
  · exact exec_refuses_of_not_isPacket s rfl (.inr (.inl rfl))
  · intro t hd hhas ht
    have hanswer := exec_detect_answers s hd
    rwa [telegramOf_eq_some hd hhas ht, Option.bind_some, detectProfile_eq] at hanswer
  · have hanswer := exec_detect_answers s hd
    rwa [telegramOf_eq_none hd hnone] at hanswer

/-- Settles O51: an accepted packet has a header, and its type code is the byte at offset 4. -/
theorem pktclassReadsThePacketType : Obligations.PktclassReadsThePacketType := by
  refine ⟨formatS_of_format (o := .pktclass) rfl fun _ => rfl, rfl, rfl, rfl, rfl, fun d s => ⟨?_, fun hd => ?_⟩⟩
  · exact exec_refuses_of_not_isPacket s rfl (.inr (.inr (.inr rfl)))
  · exact packetClassOf_of_isPacket hd ▸ exec_pktclass_answers s hd

end Sys2Proof.Machine
end

section
/-! SUPPORT. What DECODE answers on a telegram, by the profile chosen and the payload, and the statements of
44_decoder.md about the choice and the two-rocker event (R193, R195). -/

open Sys2Proof.Claims

namespace Sys2Proof.Machine

/-! ### The payload's first byte -/

theorem exists_first_byte {payload : List Byte} (h : payload ≠ []) :
    ∃ p0 tail, payload = p0 :: tail ∧ at' payload 0 = p0.toNat := by
  obtain ⟨p0, tail, rfl⟩ := List.exists_cons_of_ne_nil h
  exact ⟨p0, tail, rfl, rfl⟩

/-! ### The choice of the profile and its event -/

/-- The machine's choice of the profile is R193's. -/
theorem selectProfile_eq (selector : Byte) (t : Telegram) : selectProfile selector t = chosenProfile selector t := by
  simp only [selectProfile, chosenProfile, detectProfile_eq, beq_iff_eq, ← BitVec.toNat_inj]
  rfl

/-- The event of a kind's rule on payload `p0 :: tail`, over the fields every kind shares (R197 to R201). -/
def relayEvent (kind : CommandKind) (p0 : Byte) (tail : List Byte) (t : Telegram) : RelayEvent :=
  applyKind kind tail (relayBase kind p0 tail t)

section

variable {selector : Byte} {t : Telegram}

theorem decodeTelegram_of_noProfile (h : chosenProfile selector t = none) : decodeTelegram selector t = none := by
  rw [decodeTelegram, selectProfile_eq, h]

theorem decodeTelegram_of_noPayload (h : t.payload = []) : decodeTelegram selector t = none := by
  unfold decodeTelegram
  rw [h]
  cases selectProfile selector t with
  | none => rfl
  | some profile => cases profile <;> rfl

theorem decodeTelegram_of_twoRocker {p0 : Byte} {tail : List Byte} (h : chosenProfile selector t = some .twoRocker)
    (hp : t.payload = p0 :: tail) : decodeTelegram selector t = some (.twoRocker (decodeRocker p0 t)) := by
  rw [decodeTelegram, selectProfile_eq, h, hp]

theorem decodeTelegram_of_relayDimmer {p0 : Byte} {tail : List Byte}
    (h : chosenProfile selector t = some .relayDimmer) (hp : t.payload = p0 :: tail) :
    decodeTelegram selector t = (decodeRelay p0 tail t).map Event.relayDimmer := by
  rw [decodeTelegram, selectProfile_eq, h, hp]

/-- A relay payload whose command nibble is a kind's gives that kind's event (R197). -/
theorem decodeTelegram_of_relayKind {p0 : Byte} {tail : List Byte} {kind : CommandKind}
    (h : chosenProfile selector t = some .relayDimmer) (hp : t.payload = p0 :: tail)
    (hkind : kindOf (hiNib p0) = some kind) :
    decodeTelegram selector t = some (.relayDimmer (relayEvent kind p0 tail t)) := by
  rw [decodeTelegram_of_relayDimmer h hp, decodeRelay, hkind]
  rfl

theorem decodeTelegram_of_noRelayKind {p0 : Byte} {tail : List Byte}
    (h : chosenProfile selector t = some .relayDimmer) (hp : t.payload = p0 :: tail)
    (hout : p0.toNat / 16 = 0 ∨ 4 < p0.toNat / 16) : decodeTelegram selector t = none := by
  rw [decodeTelegram_of_relayDimmer h hp, decodeRelay, kindOf_eq_none (by rwa [hiNib_toNat])]
  rfl

end

/-! ### The two-rocker event -/

/-- R195's event, each field from the payload byte's digits and the status byte. -/
theorem decodeRocker_eq (b : Byte) (t : Telegram) :
    decodeRocker b t =
      { rockerA := rockerPosition (b.toNat / 32 % 4)
        rockerB := rockerPosition (b.toNat / 2 % 4)
        energyBow := decide (b.toNat / 16 % 2 = 1)
        secondAction := decide (b.toNat % 2 = 1)
        action := if t.status.toNat / 32 % 2 = 1 then .pressed else .released
        senderId := t.senderId
        dBm := t.dBm } := by
  have hflag (i : Nat) : bitSet b i = decide (b.toNat / 2 ^ i % 2 = 1) := by
    rw [Bool.eq_iff_iff, bitSet_iff, decide_eq_true_iff]
  have haction : actionOf t.status = if t.status.toNat / 32 % 2 = 1 then .pressed else .released := by
    simp only [actionOf, bitSet_iff, Nat.reducePow]
  simp only [decodeRocker, rockerOf_eq, bits_toNat, hflag, haction, Nat.reducePow, Nat.reduceSub, Nat.reduceAdd,
    Nat.div_one]

/-! ### The command -/

theorem operandsInRange_decode_iff (selector : Byte) (d : List Byte) :
    operandsInRange (.decode selector d) = true ↔ selector.toNat ≤ 2 := decide_eq_true_iff

section

variable {selector : Byte} {d : List Byte} (s : State) (hrange : selector.toNat ≤ 2) (hd : IsPacket d)

include hrange hd

theorem exec_decode_answers :
    Answers (exec (.decode selector d) s) s (.event ((telegramOf d).bind (decodeTelegram selector))) := by
  have hpacket := checkPacket_of_accepted (.decode selector d) s
    (respond (.event ((telegramOf d).bind (decodeTelegram selector))) s) ((isPacket_iff_accepted d).mp hd)
  exact (checkRange_of_inRange s _ ((operandsInRange_decode_iff selector d).mpr hrange)).trans hpacket

/-- DECODE on a packet with a telegram. -/
theorem exec_decode_answers_of_telegram {t : Telegram} {e : Option Event} (hhas : HasTelegram d)
    (ht : IsTelegramOf d t) (he : decodeTelegram selector t = e) :
    Answers (exec (.decode selector d) s) s (.event e) := by
  have hanswer := exec_decode_answers s hrange hd
  rwa [telegramOf_eq_some hd hhas ht, Option.bind_some, he] at hanswer

end

/-- Settles O45: the machine chooses R193's profile, and then the payload's first byte decides. -/
theorem decodeChoosesTheProfile : Obligations.DecodeChoosesTheProfile := by
  refine ⟨formatSA_of_format (o := .decode) rfl fun _ _ => rfl, fun selector d s => ⟨fun hout => ?_, ?_, ?_, ?_⟩⟩
  · apply exec_refuses_of_outOfRange
    rw [operandsInRange_decode_iff]
    omega
  · intro hrange hd
    exact exec_refuses_of_not_isPacket s ((operandsInRange_decode_iff selector d).mpr hrange)
      (.inr (.inr (.inl ⟨selector, rfl⟩))) hd
  · intro hrange hd hnone
    have hanswer := exec_decode_answers s hrange hd
    rwa [telegramOf_eq_none hd hnone] at hanswer
  · intro t hrange hd hhas ht
    have answers {e : Option Event} (he : decodeTelegram selector t = e) :
        Answers (exec (.decode selector d) s) s (.event e) := exec_decode_answers_of_telegram s hrange hd hhas ht he
    refine ⟨?_, fun hchosen hpayload => ?_, fun hchosen hpayload hlow hhigh => ?_, fun hchosen hpayload hout => ?_⟩
    · rintro (hchosen | hpayload)
      · exact answers (decodeTelegram_of_noProfile hchosen)
      · exact answers (decodeTelegram_of_noPayload hpayload)
    · obtain ⟨p0, tail, hp, -⟩ := exists_first_byte hpayload
      exact ⟨_, answers (decodeTelegram_of_twoRocker hchosen hp)⟩
    · obtain ⟨p0, tail, hp, hfirst⟩ := exists_first_byte hpayload
      rw [hfirst] at hlow hhigh
      have hsome := (kindOf_isSome_iff (hiNib p0)).mpr (by rw [hiNib_toNat]; exact ⟨hlow, hhigh⟩)
      obtain ⟨kind, hkind⟩ := Option.isSome_iff_exists.mp hsome
      exact ⟨_, answers (decodeTelegram_of_relayKind hchosen hp hkind)⟩
    · obtain ⟨p0, tail, hp, hfirst⟩ := exists_first_byte hpayload
      rw [hfirst] at hout
      exact answers (decodeTelegram_of_noRelayKind hchosen hp hout)

/-- Settles O46: the event is decoded from the payload's first byte, whose bits are its binary digits. -/
theorem rockerEventFields : Obligations.RockerEventFields := by
  intro selector d t s hrange hd hhas ht hchosen hpayload
  obtain ⟨p0, tail, hp, hfirst⟩ := exists_first_byte hpayload
  have hevent := decodeTelegram_of_twoRocker hchosen hp
  rw [decodeRocker_eq] at hevent
  rw [hfirst]
  exact exec_decode_answers_of_telegram s hrange hd hhas ht hevent

end Sys2Proof.Machine
end

section
/-! SUPPORT. The relay events by index, and the statements of 44_decoder.md about the four command kinds (R197 to
R201). -/

open Sys2Proof.Claims

namespace Sys2Proof.Machine

/-! ### The fields every kind shares -/

theorem relayBase_channel (kind : CommandKind) (p0 : Byte) (tail : List Byte) (t : Telegram) :
    (relayBase kind p0 tail t).channel.toNat = channelOf (p0 :: tail) := by
  cases tail with
  | nil => exact loNib_toNat p0
  | cons p1 rest =>
    have hmask : (p1 &&& channelMask).toNat = p1.toNat % 32 :=
      (BitVec.toNat_and _ _).trans (Nat.and_two_pow_sub_one_eq_mod p1.toNat 5)
    rw [channelOf, if_pos (by simp)]
    exact hmask

theorem applyKind_senderId (kind : CommandKind) (tail : List Byte) (ev : RelayEvent) :
    (applyKind kind tail ev).senderId = ev.senderId := by
  cases kind with
  | switching => rfl
  | dimming =>
    match tail with
    | [] | [_] | [_, _] | _ :: _ :: _ :: _ => rfl
  | statusRequest => rfl
  | statusResponse =>
    match tail with
    | [] | [_] | _ :: _ :: _ => rfl

/-- The fields no kind's rule writes. -/
theorem relayEvent_frame (kind : CommandKind) (p0 : Byte) (tail : List Byte) (t : Telegram) :
    (relayEvent kind p0 tail t).command = kind ∧
      (relayEvent kind p0 tail t).channel.toNat = channelOf (p0 :: tail) ∧
      (relayEvent kind p0 tail t).senderId = t.senderId ∧ (relayEvent kind p0 tail t).dBm = t.dBm := by
  obtain ⟨hchannel, hcommand, hdBm⟩ := applyKind_frame kind tail (relayBase kind p0 tail t)
  have hsender := applyKind_senderId kind tail (relayBase kind p0 tail t)
  rw [relayEvent, hcommand, hchannel, hsender, hdBm]
  exact ⟨rfl, relayBase_channel kind p0 tail t, rfl, rfl⟩

/-- Under the premises of the relay rules DECODE answers the event of the kind's rule on the payload (R197). -/
theorem decodesRelay_of_relayInput {selector : Byte} {d : List Byte} {t : Telegram} {nibble : Nat} (s : State)
    {kind : CommandKind} (hkind : kindOf (BitVec.ofNat 8 nibble) = some kind) (h : RelayInput selector d t nibble) :
    ∃ p0 tail, t.payload = p0 :: tail ∧
      DecodesRelay s selector d t kind (relayEvent kind p0 tail t).outputOn
        (relayEvent kind p0 tail t).outputLevel.toNat ((relayEvent kind p0 tail t).dimValue.map BitVec.toNat)
        ((relayEvent kind p0 tail t).dimTime.map BitVec.toNat) := by
  obtain ⟨hrange, hd, hhas, ht, hlen, hnibble, hchosen⟩ := h
  obtain ⟨p0, tail, hp, hfirst⟩ := exists_first_byte (List.length_pos_iff.mp hlen)
  have hhigh : hiNib p0 = BitVec.ofNat 8 nibble := by
    rw [← hnibble, hfirst, ← hiNib_toNat, BitVec.ofNat_toNat, BitVec.setWidth_eq]
  have hevent := decodeTelegram_of_relayKind hchosen hp (hhigh ▸ hkind)
  obtain ⟨hcommand, hchannel, hsender, hdBm⟩ := relayEvent_frame kind p0 tail t
  rw [← hp] at hchannel
  exact ⟨p0, tail, hp, _, exec_decode_answers_of_telegram s hrange hd hhas ht hevent, hcommand, hchannel, rfl, rfl, rfl,
    rfl, hsender, hdBm⟩

/-! ### The four kinds -/

/-- Where a switching command's on/off bit stands (R198). -/
theorem relayEvent_switching_outputOn_iff (p0 : Byte) (tail : List Byte) (t : Telegram) :
    (relayEvent .switching p0 tail t).outputOn = true ↔
      (3 ≤ (p0 :: tail).length ∧ at' (p0 :: tail) 2 % 2 = 1) ∨
        ((p0 :: tail).length = 2 ∧ at' (p0 :: tail) 1 % 2 = 1) := by
  match tail with
  | [] => simp [relayEvent, applyKind, applySwitching, relayBase]
  | [p1] => simp [relayEvent, applyKind, applySwitching, bitSet_iff, at']
  | p1 :: p2 :: rest => simp [relayEvent, applyKind, applySwitching, bitSet_iff, at']

/-- Settles O47: the level follows the on/off bit, and the rule writes no dim field. -/
theorem relaySwitchingEvent : Obligations.RelaySwitchingEvent := by
  intro selector d t s h
  obtain ⟨p0, tail, hp, hdecodes⟩ := decodesRelay_of_relayInput s (kind := .switching) rfl h
  have hon := relayEvent_switching_outputOn_iff p0 tail t
  rw [← hp] at hon
  have hlevel {on : Bool} (hbit : (relayEvent .switching p0 tail t).outputOn = on) :
      DecodesRelay s selector d t .switching on (if on then 100 else 0 : Byte).toNat none none := hbit ▸ hdecodes
  exact ⟨fun hset => hlevel (hon.mpr hset), fun hclear => hlevel (Bool.eq_false_of_not_eq_true (mt hon.mp hclear))⟩

/-- Settles O48: one case of the dimming rule per payload length. -/
theorem relayDimmingEvent : Obligations.RelayDimmingEvent := by
  intro selector d t s h
  obtain ⟨p0, tail, hp, hdecodes⟩ := decodesRelay_of_relayInput s (kind := .dimming) rfl h
  rw [hp]
  match tail with
  | [] | [_] => exact ⟨fun _ => hdecodes, by simp, by simp⟩
  | [_, _] => exact ⟨by simp, fun _ => hdecodes, by simp⟩
  | p1 :: p2 :: p3 :: rest =>
    have htime : (dimTimeOf p3).toNat = seconds (at' (p0 :: p1 :: p2 :: p3 :: rest) 3) := dimTimeOf_toNat p3
    exact ⟨by simp, by simp, fun _ => htime ▸ hdecodes⟩

/-- Settles O49: the status request's rule leaves the initial values of R184. -/
theorem relayStatusRequestEvent : Obligations.RelayStatusRequestEvent := by
  intro selector d t s h
  obtain ⟨p0, tail, -, hdecodes⟩ := decodesRelay_of_relayInput s (kind := .statusRequest) rfl h
  exact hdecodes

/-- Settles O50: one case of the status response's rule per payload length. -/
theorem relayStatusResponseEvent : Obligations.RelayStatusResponseEvent := by
  intro selector d t s h
  obtain ⟨p0, tail, hp, hdecodes⟩ := decodesRelay_of_relayInput s (kind := .statusResponse) rfl h
  rw [hp]
  match tail with
  | [] | [_] => exact ⟨fun _ => hdecodes, by simp⟩
  | _ :: _ :: _ => exact ⟨by simp, fun _ => hdecodes⟩

end Sys2Proof.Machine
end

section
/-! SUPPORT. The checks of R234 on the commands the opcode map builds, and the statements of 60_exceptions.md about what
stops a command (R231, R234, R236, R237). -/

open Sys2Proof.Claims

namespace Sys2Proof

theorem Opcode.toByte_injective : Function.Injective Opcode.toByte := fun o o' h =>
  Option.some.inj (by rw [← Opcode.ofByte_toByte o, h, Opcode.ofByte_toByte])

/-- The values outside R85's ranges are the map's. -/
theorem Opcode.exists_of_not_reservedOpcode {op : Byte} (h : ¬ReservedOpcode op) : ∃ o : Opcode, o.toByte = op := by
  obtain ⟨o, ho⟩ := Option.ne_none_iff_exists'.mp (mt (Opcode.ofByte_eq_none_iff op).mp h)
  exact ⟨o, Opcode.ofByte_eq_some ho⟩

end Sys2Proof

namespace Sys2Proof.Machine

/-- Settles O8: a refusal, a fault and a wait for the rest of a command are next states too. -/
theorem everyStepAnswersANextState : Obligations.EveryStepAnswersANextState := by
  have exec_answers (i : Instr) (s : State) : ∃ t, exec i s = .next t :=
    (exec_next i s).imp fun _ => And.left
  refine ⟨exec_answers, fun s => ?_⟩
  cases hd : decode s.port with
  | incomplete => exact ⟨_, step_of_incomplete hd⟩
  | illegalOpcode cw rest => exact ⟨_, step_of_illegalOpcode hd⟩
  | reservedField cw rest => exact ⟨_, step_of_reservedField hd⟩
  | command i rest => rw [step_of_command hd]; exact exec_answers i _

/-! ### The checks on a built command -/

/-- The must-be-zero fields of each format are those R81 lists by opcode. -/
theorem reservedClear_iff_not_breaksReserved (o : Opcode) (a p q : Byte) :
    o.format.reservedClear (be32 o.toByte a p q) = true ↔ ¬BreaksReserved o.toByte a p q := by
  cases o <;> simp [Opcode.format, Format.reservedClear, BreaksReserved, NoAOpcode, Opcode.toByte, and_assoc]

/-- The operand constraints of a built command are those R86 lists by opcode. -/
theorem operandsInRange_build_iff (o : Opcode) (a p q : Byte) (d : List Byte) :
    operandsInRange (o.build a p q d) = true ↔ ¬BreaksRange o.toByte a p q := by
  cases o <;> simp [Opcode.build, operandsInRange, BreaksRange, Opcode.toByte]

/-- The command's stream `d` must be an accepted packet (R180). -/
def TakesPacket (i : Instr) (d : List Byte) : Prop :=
  i = .telegram d ∨ i = .detect d ∨ (∃ c, i = .decode c d) ∨ i = .pktclass d

theorem TakesPacket.opcode_stream {i : Instr} {d : List Byte} (h : TakesPacket i d) :
    PacketOpcode i.opcode.toByte ∧ i.stream? = some d := by
  rcases h with rfl | rfl | ⟨c, rfl⟩ | rfl <;>
    simp [PacketOpcode, Instr.opcode, Opcode.toByte, Instr.stream?]

/-- A built command takes a packet exactly where its opcode is one of R180's: the stream it was built with. -/
theorem takesPacket_build_iff (o : Opcode) (a p q : Byte) (d d' : List Byte) :
    TakesPacket (o.build a p q d) d' ↔ PacketOpcode o.toByte ∧ d' = d := by
  constructor
  · intro h
    obtain ⟨hop, hstream⟩ := h.opcode_stream
    rw [Opcode.build_opcode] at hop
    rw [Opcode.build_stream] at hstream
    split at hstream
    · exact ⟨hop, (Option.some.inj hstream).symm⟩
    · cases hstream
  · rintro ⟨hop, rfl⟩
    cases o with
    | telegram => exact .inl rfl
    | detect => exact .inr (.inl rfl)
    | decode => exact .inr (.inr (.inl ⟨a, rfl⟩))
    | pktclass => exact .inr (.inr (.inr rfl))
    | _ => simp [PacketOpcode, Opcode.toByte] at hop

theorem eq_of_build_adddata {o : Opcode} {a p q : Byte} {d d' : List Byte} (h : o.build a p q d = .adddata d') :
    o = .adddata ∧ d' = d := by
  obtain rfl : o = .adddata := (Opcode.build_opcode o a p q d).symm.trans (congrArg Instr.opcode h)
  exact ⟨rfl, (Instr.adddata.inj h).symm⟩

/-- A command that no check stops responds, and moves nothing but the buffer. -/
theorem exec_responds {i : Instr} {s : State} (hrange : operandsInRange i = true)
    (hpacket : ∀ d, TakesPacket i d → IsPacket d)
    (hfits : ∀ d, i = .adddata d → ∀ c, s.config.bufCap = some c → s.buf.length + d.length ≤ c) :
    ∃ b r, AnswersLeaving (exec i s) s b r := by
  cases i with
  | adddata d => exact ⟨_, _, exec_adddata_of_fits (hfits d rfl)⟩
  | getbit | getbits | rocker => exact ⟨s.buf, _, checkRange_of_inRange s _ hrange⟩
  | telegram d => exact ⟨s.buf, _, exec_telegram_answers s (hpacket d (.inl rfl))⟩
  | detect d => exact ⟨s.buf, _, exec_detect_answers s (hpacket d (.inr (.inl rfl)))⟩
  | decode c d =>
    have hselector := (operandsInRange_decode_iff c d).mp hrange
    exact ⟨s.buf, _, exec_decode_answers s hselector (hpacket d (.inr (.inr (.inl ⟨c, rfl⟩))))⟩
  | pktclass d => exact ⟨s.buf, _, exec_pktclass_answers s (hpacket d (.inr (.inr (.inr rfl))))⟩
  | _ => exact ⟨_, _, rfl⟩

/-- Settles O7: a reserved opcode ends the step in the decoder; any other builds a command of the map, which meets the
remaining checks in R234's order. -/
theorem checksAreMadeInOrder : Obligations.ChecksAreMadeInOrder := by
  refine ⟨fun _ _ _ _ => ⟨rfl, rfl, rfl, rfl, rfl, rfl⟩, fun s op a p q d rest h => ?_⟩
  by_cases hop : ReservedOpcode op
  · have hdecode := decode_of_holdsCommand h
    rw [(Opcode.ofByte_eq_none_iff op).mpr hop] at hdecode
    exact ⟨fun _ => step_of_illegalOpcode hdecode, absurd hop, absurd hop, absurd hop, absurd hop, absurd hop⟩
  obtain ⟨o, rfl⟩ := Opcode.exists_of_not_reservedOpcode hop
  obtain ⟨hrun, hrefuse⟩ := step_of_holdsOpcode h
  rw [reservedClear_iff_not_breaksReserved] at hrun hrefuse
  have hword (hclear : ¬BreaksReserved o.toByte a p q) : (o.build a p q d).commandWord = wordOf o.toByte a p q :=
    Opcode.build_word o a p q d ((reservedClear_iff_not_breaksReserved o a p q).mpr hclear)
  have hrange := operandsInRange_build_iff o a p q d
  refine ⟨fun hreserved => absurd hreserved hop, fun _ hbroken => hrefuse (not_not.mpr hbroken),
    fun _ hclear hbad => ?_, fun _ hclear hgood ⟨hpacket, hd⟩ => ?_, fun _ hclear _ _ ⟨hadd, c, hc, hover⟩ => ?_,
    fun _ hclear hgood hpacket hfits => ?_⟩ <;> rw [hrun hclear]
  · rw [← hword hclear]
    exact exec_refuses_of_outOfRange _ fun hin => hrange.mp hin hbad
  · rw [← hword hclear]
    exact exec_refuses_of_not_isPacket _ (hrange.mpr hgood) ((takesPacket_build_iff o a p q d d).mpr ⟨hpacket, rfl⟩) hd
  · obtain rfl : o = .adddata := Opcode.toByte_injective hadd
    obtain ⟨-, -, hends⟩ := adddataAppendsOrOverflows
    obtain ⟨-, hoverflows⟩ := hends d { s with port := rest }
    rw [← hword hclear]
    exact hoverflows c hc hover
  · have hstream (d' : List Byte) (htakes : TakesPacket (o.build a p q d) d') : IsPacket d' := by
      obtain ⟨hpacketOp, rfl⟩ := (takesPacket_build_iff o a p q d d').mp htakes
      exact not_not.mp fun hd => hpacket ⟨hpacketOp, hd⟩
    have hroom (d' : List Byte) (hi : o.build a p q d = .adddata d') (c : Nat) (hc : s.config.bufCap = some c) :
        s.buf.length + d'.length ≤ c := by
      obtain ⟨rfl, rfl⟩ := eq_of_build_adddata hi
      exact Nat.le_of_not_lt fun hover => hfits ⟨rfl, c, hc, hover⟩
    obtain ⟨b, r, hanswer⟩ := exec_responds (s := { s with port := rest }) (hrange.mpr hgood) hstream hroom
    exact ⟨_, r, hanswer, rfl, rfl, rfl⟩

end Sys2Proof.Machine
end

section
/-! SUPPORT. The host's session and its dispatch, and the statements of 60_exceptions.md about the host's duties (R246 to
R254). -/

open Sys2Proof.Claims

namespace Sys2Proof.Machine

/-! ### The session -/

theorem Session.retry_of_lt {h : Session} (hlt : h.attempts < 5) :
    h.retry =
      { phase := .reconnecting, attempts := h.attempts + 1, timer := some (reconnectDelay (h.attempts + 1)) } :=
  if_pos hlt

theorem Session.retry_of_ge {h : Session} (hge : 5 ≤ h.attempts) :
    h.retry = { phase := .disconnected, attempts := h.attempts + 1, timer := none } :=
  if_neg (Nat.not_le_of_lt (Nat.lt_succ_of_le hge))

section

variable {h : Session}

theorem Session.step_openFailed_reconnect (hphase : h.phase = .connecting false) :
    h.step .openFailed = { session := h.retry, events := [.error] } := by simp only [Session.step, hphase]

theorem Session.step_openFailed_explicit (hphase : h.phase = .connecting true) :
    h.step .openFailed = { session := { h with phase := .disconnected }, reply := some .openError } := by
  simp only [Session.step, hphase]

theorem Session.step_lost (hphase : h.phase = .connected) {e : SessionInput}
    (he : e ∈ [SessionInput.transportError, .transportClosed]) : ∃ events, h.step e = h.lost events := by
  simp only [List.mem_cons, List.not_mem_nil, or_false] at he
  rcases he with rfl | rfl <;> simp only [Session.step, hphase] <;> exact ⟨_, rfl⟩

theorem Session.step_chunk (hphase : h.phase = .connected) (d : List Byte) :
    h.step (.chunk d) = { session := h, commands := feed d } := by simp only [Session.step, hphase]

/-- A chunk while not connected is dropped (notes/assumptions/9.md). -/
theorem Session.step_chunk_of_ne (hphase : h.phase ≠ .connected) (d : List Byte) :
    h.step (.chunk d) = { session := h } := by
  obtain ⟨phase, attempts, timer⟩ := h
  cases phase with
  | connected => exact absurd rfl hphase
  | _ => rfl

end

/-! ### What a session keeps -/

theorem sessionSound_disconnected (n : Nat) : SessionSound { phase := .disconnected, attempts := n, timer := none } := by
  simp [SessionSound]

/-- One more failure leaves a sound session whatever was before: the counter of a scheduled reconnect is 1 to 5 (R252,
R254). -/
theorem sessionSound_retry (h : Session) : SessionSound h.retry := by
  rcases Nat.lt_or_ge h.attempts 5 with hlt | hge
  · simpa [Session.retry_of_lt hlt, SessionSound] using hlt
  · rw [Session.retry_of_ge hge]
    exact sessionSound_disconnected _

/-- Every input of the host keeps the session sound. -/
theorem sessionSound_step {h : Session} (hs : SessionSound h) (e : SessionInput) : SessionSound (h.step e).session := by
  obtain ⟨phase, attempts, timer⟩ := h
  have ⟨_, hpending, hcount⟩ := hs
  have htimer : phase ≠ .reconnecting → timer = none := fun hne => by simpa [hne] using hpending
  cases e with
  | connect configured =>
    cases configured with
    | false => exact hs
    | true =>
      cases phase with
      | disconnected => simp [Session.step, SessionSound, htimer]
      | _ => exact hs
  | opened =>
    cases phase with
    | connecting => simp [Session.step, SessionSound]
    | _ => exact hs
  | openFailed =>
    cases phase with
    | connecting explicit =>
      cases explicit with
      | true => rw [htimer nofun]; exact sessionSound_disconnected attempts
      | false => exact sessionSound_retry _
    | _ => exact hs
  | transportError | transportClosed =>
    cases phase with
    | connected => exact sessionSound_retry _
    | _ => exact hs
  | timerFired =>
    cases phase with
    | reconnecting => exact ⟨nofun, by simp [Session.step], fun _ => hcount (.inl rfl)⟩
    | _ => exact hs
  | disconnect => exact sessionSound_disconnected attempts
  | chunk | send =>
    cases phase <;> exact hs

/-- Settles O59: the session's invariant is kept input by input; a failure's outcome is decided by the counter. -/
theorem hostBacksOffAndClears : Obligations.HostBacksOffAndClears := by
  refine ⟨sessionSound_disconnected 0, fun h e hs => sessionSound_step hs e, fun h hs hphase e he => ?_,
    fun h hs hphase => ?_, fun h hs hphase => ?_, fun h d hphase => ?_, rfl⟩
  · obtain ⟨events, hstep⟩ := Session.step_lost hphase he
    obtain ⟨hcounter, -, -⟩ := hs
    have hfresh := hcounter hphase
    have hretry := Session.retry_of_lt (h := h) (by omega)
    rw [hfresh] at hretry
    rw [hstep]
    exact ⟨rfl, hretry⟩
  · rw [Session.step_openFailed_reconnect hphase]
    refine ⟨rfl, Session.retry_of_lt, fun hlast => ?_⟩
    rw [Session.retry_of_ge hlast.ge, hlast]
  · rw [Session.step_openFailed_explicit hphase]
    exact ⟨rfl, rfl⟩
  · rw [Session.step_chunk_of_ne hphase]
    exact ⟨rfl, rfl⟩

/-! ### The dispatch -/

theorem issue_of_exec {i : Instr} {b t : State} (h : exec i b = .next t) : issue b i = t := by rw [issue, h]

/-- What the host emits for a packet is R247's and R248's, in any state of the block. -/
theorem emitsFor_dispatchPacket (b : State) {p : List Byte} (hp : IsPacket p) : EmitsFor p (dispatchPacket b p).2 := by
  rw [dispatchPacket_events b ((isPacket_iff_accepted p).mp hp), packetClassOf_of_isPacket hp]
  refine ⟨fun hradio hhas => ?_, fun hradio hnone => ?_, fun hwhole => ?_, fun hother => ?_⟩
  · obtain ⟨t, htelegram, ht⟩ := exists_telegramOf hp hhas
    refine ⟨t, _, ht, fun s => exec_decode_answers_of_telegram s (by decide) hp hhas ht rfl, ?_⟩
    simp only [hradio, htelegram, if_true]
  · simp only [hradio, telegramOf_eq_none hp hnone, if_true]
  · rcases hwhole with h | h <;> simp [h]
  · rw [if_neg (by omega), if_neg (by omega), if_neg (by omega)]

/-- A chunk while connected: ADDDATA, then PARSE, then the dispatch of what PARSE returned (R246). -/
theorem Site.step_chunk {w : Site} {d : List Byte} {a b : State} {ps : List (List Byte)}
    (hphase : w.session.phase = .connected) (hadd : exec (.adddata d) w.block = .next a)
    (hparse : exec .parse a = .next b) (hps : b.answer = some (.response (.packets ps))) :
    w.step (.chunk d) = ({ session := w.session, block := (dispatchAll b ps).1 }, (dispatchAll b ps).2) := by
  have hblock : (feed d).foldl issue w.block = b := by
    rw [feed, List.foldl_cons, List.foldl_cons, List.foldl_nil, issue_of_exec hadd, issue_of_exec hparse]
  have hpackets : parsedPackets (feed d) b = ps := by
    simp [parsedPackets, feed, State.response, hps]
  simp only [Site.step, Session.step_chunk hphase, hblock, hpackets, List.nil_append]

/-- Settles O60: PARSE returns packets only, and for each the dispatch emits what R247 and R248 say and moves nothing of
the block but the answer. -/
theorem hostDispatchesEveryPacketInOrder : Obligations.HostDispatchesEveryPacketInOrder := by
  intro w d hphase
  obtain ⟨a, hadd, -⟩ := exec_next (.adddata d) w.block
  obtain ⟨b, ps, hparse, hps⟩ : ∃ b ps, exec .parse a = .next b ∧ b.answer = some (.response (.packets ps)) :=
    ⟨_, _, exec_parse a, rfl⟩
  have hpackets : ∀ p ∈ ps, IsPacket p := parseReturnsOnlyPackets a b ps hparse hps
  obtain ⟨⟨answer, hblock⟩, hevents⟩ := dispatchAll_eq b ps fun p hp => (isPacket_iff_accepted p).mp (hpackets p hp)
  refine ⟨a, b, ps, ps.map fun p => (dispatchPacket b p).2, hadd, hparse, hps, ?_, ?_⟩
  · exact List.forall₂_map_right_iff.mpr (List.forall₂_same.mpr fun p hp => emitsFor_dispatchPacket b (hpackets p hp))
  · rw [Site.step_chunk hphase hadd hparse hps, hevents, hblock]
    exact ⟨List.flatMap_def, rfl, rfl, rfl, rfl⟩

end Sys2Proof.Machine
end

section
/-! SUPPORT. Bytes the host offers behind a whole command, and the statements of 70_reset_and_hazards.md: the hold
(R265), reset (R260) and CLRBUF beside it (R261). -/

namespace Sys2Proof.Machine

/-! ### Bytes offered behind a command -/

section

variable {s t : State} (more : List Byte)

/-- A command neither drops nor performs what is offered behind it. -/
theorem exec_offer {i : Instr} (h : exec i s = .next t) : exec i (s.offer more) = .next (t.offer more) := by
  obtain ⟨u, hu, hport⟩ := exec_next i s
  obtain rfl : u = t := Host.Outcome.next.inj (hu.symm.trans h)
  rw [State.offer, State.offer, hport]
  exact exec_setPort i s u _ h

theorem refuse_offer {r : RefusalReport} (h : refuse r s = .next t) :
    refuse r (s.offer more) = .next (t.offer more) := by
  cases h
  rfl

end

/-- Settles O11: the verdict is the same with the offered bytes behind the rest of the port, and the end of the command
it leads to keeps them there. -/
theorem laterBytesAreHeld : Obligations.LaterBytesAreHeld := by
  intro s t more hd ht
  have hoffer : decode (s.offer more).port = (decode s.port).behind more := decode_append more hd
  cases hverdict : decode s.port with
  | incomplete => exact absurd hverdict hd
  | illegalOpcode cw rest =>
    rw [step_of_illegalOpcode hverdict] at ht
    rw [hverdict] at hoffer
    exact (step_of_illegalOpcode hoffer).trans (refuse_offer more ht)
  | reservedField cw rest =>
    rw [step_of_reservedField hverdict] at ht
    rw [hverdict] at hoffer
    exact (step_of_reservedField hoffer).trans (refuse_offer more ht)
  | command i rest =>
    rw [step_of_command hverdict] at ht
    rw [hverdict] at hoffer
    exact (step_of_command hoffer).trans (exec_offer more ht)

/-! ### Reset -/

/-- Settles O52: the values are those the reset state is defined with. -/
theorem resetLeavesAnEmptyBuffer : Obligations.ResetLeavesAnEmptyBuffer := ⟨rfl, rfl, rfl⟩

/-- Settles O53: the instance is unbounded, no mark is set and nothing has been answered. -/
theorem invHoldsAtReset : Obligations.InvHoldsAtReset where
  bufFits := nofun
  resultFits := nofun
  refusalMarked := nofun
  faultMarked := nofun
  faultNeedsCapacity := nofun
  responseSound := nofun

/-- Settles O58: CLRBUF leaves the empty buffer of reset and writes no mark (R163). -/
theorem clrbufRestoresTheResetState : Obligations.ClrbufRestoresTheResetState := by
  intro s
  obtain ⟨-, hclrbuf⟩ := clrbufEmptiesTheBuffer
  exact ⟨_, hclrbuf s, rfl, rfl, rfl, fun hfaulted hrefused => ⟨rfl, hfaulted, hrefused⟩⟩

end Sys2Proof.Machine
end
